-- ==== Sys2Proof/Word.lean ====
section
/-! DEFINITION. The word types of LZWC: output bytes and command words (00_scope.md R4, R7; 30_encoding.md R60). -/

namespace Sys2Proof

/-- One byte of the output stream, the sub-block buffer and the payload (R7). -/
abbrev Byte := BitVec 8

/-- One command word `cmd[9:0]` (R60). -/
abbrev CmdWord := BitVec 10

end Sys2Proof
end

