-- ==== Sys2Proof/Config.lean ====
section
/-! DEFINITION. The fixed constants of LZWC (00_scope.md R4) and the free values of the model. -/

namespace Sys2Proof.Config

/-- Number of slots of the string table (R4). -/
abbrev hsize : Nat := 5003

/-- Largest code width in bits (R4). -/
abbrev maxBits : Nat := 12

/-- Code-space ceiling, `2 ^ maxBits`; never assigned and never emitted (R4). -/
abbrev maxMaxCode : Nat := 4096

/-- Capacity of the sub-block buffer in bytes (R4). -/
abbrev bufCap : Nat := 255

/-- Width of a symbol (R4). -/
abbrev symBits : Nat := 8

/-- Left shift of the symbol in the hash function (R4, R101; the spec marks it as general knowledge: log 18). -/
abbrev hshift : Nat := 4

/-- Width of a stored key (R4, R100; log 18). -/
abbrev keyBits : Nat := 20

/-- Width of a command word (R4, R60). -/
abbrev cmdBits : Nat := 10

/-! Free values. After RESET the registers below hold no value (10_state.md R25, R26); 93_implementation_defined.md
U4 lets a model hold an unconstrained value instead. Each is a constant without a body, so nothing can be proved of
its value; the argument is `State.freeCount` at the RESET that draws it (DESIGN CHOICE, log 1, log 6). -/

/-- What `bpp` holds after the `n`-th RESET (log 1). -/
opaque unwrittenBpp : Nat → BitVec 4

/-- What `ent` holds after the `n`-th RESET (log 1). -/
opaque unwrittenEnt : Nat → BitVec 12

/-- What `n_bits` holds after the `n`-th RESET (log 1). -/
opaque unwrittenNBits : Nat → BitVec 4

/-- What `free_ent` holds after the `n`-th RESET (log 1). -/
opaque unwrittenFreeEnt : Nat → BitVec 13

/-- What `acc` holds after the `n`-th RESET (log 1). -/
opaque unwrittenAcc : Nat → BitVec 32

/-- What `cur_bits` holds after the `n`-th RESET (log 1). -/
opaque unwrittenCurBits : Nat → BitVec 5

/-- What `buf_cnt` holds after the `n`-th RESET (log 1). -/
opaque unwrittenBufCnt : Nat → BitVec 8

/-- How many of an interrupted step's bytes had left the block when RESET cut it (70_reset_and_hazards.md R151: a
free choice; log 5). A number beyond the step's bytes means all of them. -/
opaque cutLength : Nat → Nat

end Sys2Proof.Config
end

