-- ==== Sys2Proof/Syntax.lean ====
section
/-! DEFINITION. The commands of LZWC, one constructor per row of spec/opcode_table.json (30_encoding.md R60, R61). -/

namespace Sys2Proof

/-- A command: the row `op` selects, with the word's operand field `arg = cmd[7:0]` (R60). -/
inductive Instr where
  /-- `START`: `arg[3:0]` is `bpp`, `arg[7:4]` is reserved and must be 0 (R61, R80). -/
  | start (arg : BitVec 8)
  /-- `SYM`: `arg` is the symbol `c` (R61, R81). -/
  | sym (c : BitVec 8)
  /-- `END`: `arg` is reserved and must be 0 (R61, R82). -/
  | endFrame (arg : BitVec 8)
  /-- `RESERVED`: `op = 0b11`, any `arg` (R62). -/
  | reserved (arg : BitVec 8)
  deriving DecidableEq, Repr

end Sys2Proof
end

