-- ==== Sys2Proof/WellFormed.lean ====
section
/-! DEFINITION. Which commands are well-formed: the reserved operand bits are zero (30_encoding.md R61, R62). -/

namespace Sys2Proof

/-- The reserved bits of a START operand are zero (R62 b). -/
def startBitsClear (arg : BitVec 8) : Bool := arg.extractLsb' 4 4 == 0#4

/-- The reserved bits of an END operand are zero (R62 c). -/
def endBitsClear (arg : BitVec 8) : Bool := arg == 0#8

/-- A command is well-formed when its word matches its row of the opcode table, reserved bits included (R61). A START
whose `bpp` is illegal is well-formed (R62 d), a SYM always is (R62 e), and every `op = 0b11` word matches the reserved
row (R62 a). -/
def Instr.wellFormed : Instr → Bool
  | .start arg => startBitsClear arg
  | .sym _ => true
  | .endFrame arg => endBitsClear arg
  | .reserved _ => true

end Sys2Proof
end

