-- ==== Sys2Proof/Decode.lean ====
section
/-! DEFINITION. The decoder, from the match and mask columns of 30_encoding.md R61, and the encoder, from its field
columns (R60, R61). -/

namespace Sys2Proof

/-- The field `op = cmd[9:8]` (R60). -/
def opOf (w : CmdWord) : BitVec 2 := w.extractLsb' 8 2

/-- The field `arg = cmd[7:0]` (R60). -/
def argOf (w : CmdWord) : BitVec 8 := w.extractLsb' 0 8

/-- The match and mask columns of one row of the opcode table (R61). -/
structure OpcodeRow where
  mnemonic : String
  mask : CmdWord
  pattern : CmdWord
  deriving DecidableEq, Repr

/-- `(cmd & mask) == match` (R61). -/
def OpcodeRow.fits (r : OpcodeRow) (w : CmdWord) : Bool := w &&& r.mask == r.pattern

/-- Row `START` of opcode_table.json (R61). -/
def startRow : OpcodeRow := { mnemonic := "START", mask := 0x3F0#10, pattern := 0x000#10 }

/-- Row `SYM` of opcode_table.json (R61). -/
def symRow : OpcodeRow := { mnemonic := "SYM", mask := 0x300#10, pattern := 0x100#10 }

/-- Row `END` of opcode_table.json (R61). -/
def endRow : OpcodeRow := { mnemonic := "END", mask := 0x3FF#10, pattern := 0x200#10 }

/-- Row `RESERVED` of opcode_table.json (R61, R62). -/
def reservedRow : OpcodeRow := { mnemonic := "RESERVED", mask := 0x300#10, pattern := 0x300#10 }

/-- The four rows, in the table's order. -/
def opcodeRows : List OpcodeRow := [startRow, symRow, endRow, reservedRow]

/-- Why a word is no command. -/
inductive DecodeError where
  /-- A START word with `arg[7:4] ≠ 0`, `0x010 .. 0x0FF` (R62 b). -/
  | startReservedBits (w : CmdWord)
  /-- An END word with `arg ≠ 0`, `0x201 .. 0x2FF` (R62 c). -/
  | endReservedBits (w : CmdWord)
  /-- A number that is no 10-bit word: the command port has ten data wires (10_state.md R30; log 9). -/
  | notACommandWord (n : Nat)
  deriving DecidableEq, Repr

/-- The decoder: the row whose pattern the word matches; a word that matches none is illegal (R61, R62). -/
def decode (w : CmdWord) : Except DecodeError Instr :=
  if startRow.fits w then .ok (.start (argOf w))
  else if symRow.fits w then .ok (.sym (argOf w))
  else if endRow.fits w then .ok (.endFrame (argOf w))
  else if reservedRow.fits w then .ok (.reserved (argOf w))
  else if opOf w == 0b00#2 then .error (.startReservedBits w)
  else .error (.endReservedBits w)

/-- The decoder on a number, as the opcode table numbers a word's bits. -/
def decodeNumber (n : Nat) : Except DecodeError Instr :=
  if n < 2 ^ Config.cmdBits then decode (BitVec.ofNat 10 n) else .error (.notACommandWord n)

/-- The host's question: which instruction the decoder reads from the word with bits `w`. A command is one word,
whatever `nbits` says (R60). -/
def decodeTableWord (_nbits w : Nat) : Option Instr := (decodeNumber w).toOption

/-- The opcode field of a command (R61). -/
def Instr.op : Instr → BitVec 2
  | .start _ => 0b00#2
  | .sym _ => 0b01#2
  | .endFrame _ => 0b10#2
  | .reserved _ => 0b11#2

/-- The operand field of a command (R61). -/
def Instr.arg : Instr → BitVec 8
  | .start arg => arg
  | .sym c => c
  | .endFrame arg => arg
  | .reserved arg => arg

/-- The encoder: `op` in bits 9:8, `arg` in bits 7:0 (R60). -/
def encode (i : Instr) : CmdWord := i.op ++ i.arg

/-- The row of the opcode table a command belongs to (R61). -/
def Instr.row : Instr → OpcodeRow
  | .start _ => startRow
  | .sym _ => symRow
  | .endFrame _ => endRow
  | .reserved _ => reservedRow

end Sys2Proof
end

