-- ==== Sys2Proof/Machine/State.lean ====
section
/-! DEFINITION. The state of LZWC as plain data (10_state.md R10 to R30), the inputs and the output stream, the reasons
a step can stop, and the state after reset. -/

namespace Sys2Proof.Machine

/-- The control state of the block (10_state.md R12). -/
inductive Phase where
  /-- Reset, no frame started. -/
  | idle
  /-- Between START and END. -/
  | run
  /-- A frame has ended and its bytes are all in `OUT`. -/
  | done
  /-- A fault was taken; left only by RESET. -/
  | fault
  deriving DecidableEq, Repr

/-- What `fault_code` records (10_state.md R20; 60_exceptions.md R130). The eighth 3-bit value, 7, is never written
(R130) and has no constructor (log 10). -/
inductive FaultCode where
  /-- 0: no fault has been taken. -/
  | noFault
  /-- 1: a word no row matches, or a reserved opcode. -/
  | illegalCommand
  /-- 2: START with `bpp` outside 1, 2, 4, 8. -/
  | illegalConfig
  /-- 3: a command not allowed in the current phase. -/
  | protocol
  /-- 4: SYM with `c >= 2^bpp`. -/
  | symbolRange
  /-- 5: END with no symbol since START. -/
  | emptyInput
  /-- 6: reserved for an implementation's self-checks; nothing in the model raises it (R131; log 10). -/
  | invariantViolation
  deriving DecidableEq, Repr

/-- The three fields of a slot of `HT` that has been written (10_state.md R18). -/
structure HtEntry where
  valid : Bool
  key : BitVec 20
  code : BitVec 12
  deriving DecidableEq, Repr

/-- What the environment does next at the block's inputs (10_state.md R21, R30; 60_exceptions.md R146). -/
inductive Input where
  /-- A command word is presented on the command port, and held until it is accepted (R154). -/
  | word (w : CmdWord)
  /-- A command word is presented and held, but if RESET is asserted before it is accepted the environment takes it back,
  as program P3 of 95_test_vectors.md does with the word it presents in FAULT (log 4). -/
  | wordUntilReset (w : CmdWord)
  /-- RESET is asserted at a command boundary (70_reset_and_hazards.md R150). -/
  | reset
  /-- A command word is presented, and RESET is asserted while it executes (R151) or, where it cannot be accepted, while
  it waits. -/
  | cutWord (w : CmdWord)
  deriving DecidableEq, Repr

/-- The state. The first thirteen fields are the block's own (10_state.md R10); `inputs` and `out` are the two streams of
R21; `freeCount` is the model's own (log 6). -/
structure State where
  /-- R12. -/
  phase : Phase
  /-- R20. -/
  faultCode : FaultCode
  /-- R11. -/
  bpp : BitVec 4
  /-- R13: the current prefix code. -/
  ent : BitVec 12
  /-- R13: whether `ent` holds a prefix. -/
  entValid : Bool
  /-- R14: the current code width. -/
  nBits : BitVec 4
  /-- R15: the next code to be assigned. -/
  freeEnt : BitVec 13
  /-- R16: the code width must reset on the next growth check. -/
  clearFlag : Bool
  /-- R17: the bit accumulator. -/
  acc : BitVec 32
  /-- R17: how many bits of `acc` are waiting. -/
  curBits : BitVec 5
  /-- R19: how many bytes of `buf` are held. -/
  bufCnt : BitVec 8
  /-- R18: the string table. `none`: no field of any slot holds a value (after RESET, R25). `some t`: every slot's
  `valid` bit has been written; `t` lists, by rising slot number, the slots whose `key` and `code` have been written,
  and a slot not in `t` has `valid = 0` and no `key` or `code` (log 2). -/
  ht : Option (List (Nat × HtEntry))
  /-- R19: the sub-block buffer, the bytes written since RESET by rising index; an index not listed holds no value
  (log 2). -/
  buf : List Host.Cell
  /-- What the environment will still do, first thing first (R21, R30; log 3). -/
  inputs : List Input
  /-- `OUT`: the bytes that have left the block, first byte first (R21). -/
  out : List Byte
  /-- Which draw of the free values is next (the model's own field; log 6). -/
  freeCount : Nat
  deriving DecidableEq, Repr

/-- Why the machine stops with no next state. -/
inductive Fault where
  /-- A command in phase FAULT: the step function has no transition (60_exceptions.md R137, 93_implementation_defined.md
  U3). Raised by every meaning and by the step. Safe: the machine goes no further than the hardware. -/
  | faultPhase
  /-- Probe met a slot whose fields hold no value (10_state.md R26). Raised by SYM; no reachable
  state raises it. Safe (log 2). -/
  | htNoValue
  /-- FlushBlock read a byte of `BUF` that holds no value (R26). Raised by SYM and END through FlushBlock; no
  reachable state raises it. Safe (log 2). -/
  | bufNoValue
  /-- ByteOut wrote `BUF[255]`, which does not exist (20_memory.md R42). Raised by SYM and END in a state with
  `buf_cnt = 255`; no reachable state raises it. Safe (log 12). -/
  | bufOutOfRange
  /-- Probe has read all 5003 slots, none empty and none with the key, and would read them for ever (41_string_table.md
  R102). Raised by SYM; no reachable state raises it (R106). Safe (log 11). -/
  | probeDiverges
  deriving DecidableEq, Repr

/-- Why an instruction has no meaning. -/
inductive Refusal where
  /-- The instruction has no meaning in the model yet. Raised by no arm: all are modelled. Safe. -/
  | notModelled (mnemonic : String)
  deriving DecidableEq, Repr

/-- The machine right after the first RESET (70_reset_and_hazards.md R150, 10_state.md R25): `phase`, `fault_code`,
`ent_valid` and `clear_flag` as the spec says; every other register an unconstrained value (log 1); no slot of `HT` and
no byte of `BUF` holding a value (log 2); nothing presented (log 7); nothing output. -/
def State.reset : State where
  phase := .idle
  faultCode := .noFault
  bpp := Config.unwrittenBpp 0
  ent := Config.unwrittenEnt 0
  entValid := false
  nBits := Config.unwrittenNBits 0
  freeEnt := Config.unwrittenFreeEnt 0
  clearFlag := false
  acc := Config.unwrittenAcc 0
  curBits := Config.unwrittenCurBits 0
  bufCnt := Config.unwrittenBufCnt 0
  ht := none
  buf := []
  inputs := []
  out := []
  freeCount := 1

end Sys2Proof.Machine
end

