-- ==== Sys2Proof/Machine/Operands.lean ====
section
/-! DEFINITION. The operand fields and their legal values (30_encoding.md R61), and the per-frame parameters, functions
of `bpp` (00_scope.md R5, 10_state.md R14, R23). -/

namespace Sys2Proof.Machine

/-- `bpp = arg[3:0]` of a START (R61). -/
def bppField (arg : BitVec 8) : BitVec 4 := arg.extractLsb' 0 4

/-- `bpp ∈ {1, 2, 4, 8}` (R5, R80). -/
def legalBpp (b : BitVec 4) : Bool := b == 1#4 || b == 2#4 || b == 4#4 || b == 8#4

/-- `c < 2^bpp` (R81). -/
def symbolInRange (bpp : BitVec 4) (c : BitVec 8) : Bool := decide (c.toNat < 2 ^ bpp.toNat)

/-- `ICS = max(2, bpp)` (R5). -/
def ics (bpp : BitVec 4) : Nat := max 2 bpp.toNat

/-- `CLEAR = 1 << ICS` (R5). -/
def clearCode (bpp : BitVec 4) : Nat := 2 ^ ics bpp

/-- `EOFC = CLEAR + 1` (R5). -/
def eofCode (bpp : BitVec 4) : Nat := clearCode bpp + 1

/-- `FIRST = CLEAR + 2` (R5). -/
def firstCode (bpp : BitVec 4) : Nat := clearCode bpp + 2

/-- `MAXCODE(n) = (1 << n) - 1` (10_state.md R14). -/
def maxCode (n : BitVec 4) : Nat := 2 ^ n.toNat - 1

end Sys2Proof.Machine
end

