-- ==== Sys2Proof/Machine/Flags.lean ====
section
/-! DEFINITION. The flags `ent_valid` and `clear_flag` (10_state.md R13, R16), the width update that consumes
`clear_flag` (42_code_emit.md R112), and the status outputs (10_state.md R22, R30). -/

namespace Sys2Proof.Machine

/-- A prefix is taken: `ent <- c; ent_valid <- 1` (40_commands.md R81, first symbol of a frame). -/
def takePrefix (c : BitVec 8) (s : State) : State := { s with ent := c.setWidth 12, entValid := true }

/-- The prefix becomes the symbol `c` after a miss: `ent <- c` (R81). -/
def restartPrefix (c : BitVec 8) (s : State) : State := { s with ent := c.setWidth 12 }

/-- The mark that the code width must reset on the next growth check: `clear_flag <- 1` (R16, R81). -/
def markClear (s : State) : State := { s with clearFlag := true }

/-- `WidthUpdate()` (R112). -/
def widthUpdate (s : State) : State :=
  if s.clearFlag then { s with nBits := BitVec.ofNat 4 (ics s.bpp + 1), clearFlag := false }
  else if maxCode s.nBits < s.freeEnt.toNat ∧ s.nBits.toNat < Config.maxBits then { s with nBits := s.nBits + 1#4 }
  else s

/-- The number a phase has on `st_phase` (10_state.md R12). -/
def Phase.bits : Phase → BitVec 2
  | .idle => 0#2
  | .run => 1#2
  | .done => 2#2
  | .fault => 3#2

/-- The number a fault code has on `st_fault` (60_exceptions.md R130). -/
def FaultCode.bits : FaultCode → BitVec 3
  | .noFault => 0#3
  | .illegalCommand => 1#3
  | .illegalConfig => 2#3
  | .protocol => 3#3
  | .symbolRange => 4#3
  | .emptyInput => 5#3
  | .invariantViolation => 6#3

/-- Status output `st_phase[1:0]` (R22). -/
def State.stPhase (s : State) : BitVec 2 := s.phase.bits

/-- Status output `st_fault[2:0]` (R22). -/
def State.stFault (s : State) : BitVec 3 := s.faultCode.bits

/-- Status output `done` (R22). -/
def State.doneOut (s : State) : Bool := s.phase == .done

/-- Status output `fault` (R22). -/
def State.faultOut (s : State) : Bool := s.phase == .fault

/-- Status output `min_code_size[3:0] = max(2, bpp)` (R22); to be used only in RUN and DONE (log 16). -/
def State.minCodeSize (s : State) : BitVec 4 := BitVec.ofNat 4 (ics s.bpp)

/-- `cmd_ready` at a command boundary: low exactly in FAULT (R30; 60_exceptions.md R137). -/
def State.cmdReady (s : State) : Bool := s.phase != .fault

end Sys2Proof.Machine
end

