-- ==== Sys2Proof/Machine/Ops.lean ====
section
/-! DEFINITION. The named operations over memory, the output stream and the control registers: sparse memory, OutByte
(00_scope.md R8), fault entry (60_exceptions.md R136), RESET (70_reset_and_hazards.md R150). -/

namespace Sys2Proof.Machine

/-- The three outcomes of a step over this machine's types. -/
abbrev Result := Host.Outcome State Fault Refusal

/-- An operation's answer as a step's outcome: a next state, or the reason the machine stops. -/
def toOutcome : Except Fault State → Result
  | .ok s => .next s
  | .error r => .fault r

/-! Sparse memory: a list of (index, value) pairs by strictly rising index. An index not listed holds no value. -/

/-- `MemRead`: the value at index `a`, if it holds one (R8). -/
def Memory.read {α : Type} : List (Nat × α) → Nat → Option α
  | [], _ => none
  | (b, v) :: rest, a => if a = b then some v else Memory.read rest a

/-- `MemWrite`: the value `v` at index `a`, kept in rising order (R8). -/
def Memory.write {α : Type} : List (Nat × α) → Nat → α → List (Nat × α)
  | [], a, v => [(a, v)]
  | (b, u) :: rest, a, v =>
    if a < b then (a, v) :: (b, u) :: rest
    else if a = b then (a, v) :: rest
    else (b, u) :: Memory.write rest a v

/-- The canonical form: indices strictly rising and inside the array. No listed value can equal what an unlisted index
reads as, since that is no value at all (log 2). -/
abbrev Memory.wf {α : Type} (size : Nat) (m : List (Nat × α)) : Prop :=
  m.Pairwise (fun x y => x.1 < y.1) ∧ ∀ x ∈ m, x.1 < size

/-- The `n` values from index `a` on, if each of them holds one. -/
def Memory.readRange {α : Type} (m : List (Nat × α)) : Nat → Nat → Option (List α)
  | _, 0 => some []
  | a, n + 1 =>
    match Memory.read m a, Memory.readRange m (a + 1) n with
    | some v, some vs => some (v :: vs)
    | _, _ => none

/-- Both memories are in canonical form: `HT` has slots 0 to 5002, `BUF` bytes 0 to 254 (20_memory.md R40). -/
abbrev State.memoryWf (s : State) : Prop :=
  Memory.wf Config.hsize (s.ht.getD []) ∧ Memory.wf Config.bufCap s.buf

/-- `OutByte(b)` for each byte of `bs` in turn: the only way `OUT` changes (R8). -/
def outBytes (bs : List Byte) (s : State) : State := { s with out := s.out ++ bs }

/-- Fault entry (60_exceptions.md R136): `fault_code <- n; phase <- FAULT`, and that is all. -/
def takeFault (code : FaultCode) (s : State) : State := { s with faultCode := code, phase := .fault }

/-- The RESET event (70_reset_and_hazards.md R150): `phase`, `fault_code`, `ent_valid` and `clear_flag` as the rule
says; every other register a fresh unconstrained value (log 1), `HT` and `BUF` without values (log 2, log 13); `OUT` and
what the environment still presents unchanged. -/
def takeReset (s : State) : State where
  phase := .idle
  faultCode := .noFault
  bpp := Config.unwrittenBpp s.freeCount
  ent := Config.unwrittenEnt s.freeCount
  entValid := false
  nBits := Config.unwrittenNBits s.freeCount
  freeEnt := Config.unwrittenFreeEnt s.freeCount
  clearFlag := false
  acc := Config.unwrittenAcc s.freeCount
  curBits := Config.unwrittenCurBits s.freeCount
  bufCnt := Config.unwrittenBufCnt s.freeCount
  ht := none
  buf := []
  inputs := s.inputs
  out := s.out
  freeCount := s.freeCount + 1

/-- A command has a step only when the block can accept it: in phase FAULT there is no transition (R137). -/
def whenAccepting (s : State) (k : Result) : Result :=
  if s.phase = .fault then .fault .faultPhase else k

end Sys2Proof.Machine
end

