-- ==== Sys2Proof/Machine/SubBlock.lean ====
section
/-! DEFINITION. Sub-block framing: ByteOut, FlushBlock, Terminate (43_subblock.md R120 to R122). -/

namespace Sys2Proof.Machine

/-- `FlushBlock()` (R121): the length byte and the held bytes, in the order they were stored; nothing when there are
none. The bytes of `BUF` are not erased. -/
def flushBlock (s : State) : Except Fault State :=
  if s.bufCnt = 0#8 then .ok s
  else
    match Memory.readRange s.buf 0 s.bufCnt.toNat with
    | some bytes => .ok { outBytes (s.bufCnt :: bytes) s with bufCnt := 0#8 }
    | none => .error .bufNoValue

/-- `MemWrite(BUF[buf_cnt], 1, b); buf_cnt <- buf_cnt + 1` (R120). -/
def storeByte (b : Byte) (s : State) : State :=
  { s with buf := Memory.write s.buf s.bufCnt.toNat b, bufCnt := s.bufCnt + 1#8 }

/-- `ByteOut(b)` (R120): the byte is stored, and a buffer that is now full is flushed at once. -/
def byteOut (b : Byte) (s : State) : Except Fault State :=
  if s.bufCnt.toNat < Config.bufCap then
    let s' := storeByte b s
    if s'.bufCnt.toNat = Config.bufCap then flushBlock s' else .ok s'
  else .error .bufOutOfRange

/-- `Terminate()` (R122): the zero-length sub-block. -/
def terminate (s : State) : State := outBytes [0x00#8] s

end Sys2Proof.Machine
end

