-- ==== Sys2Proof/Machine/CodeEmit.lean ====
section
/-! DEFINITION. Code emission: bit packing and the final partial byte (42_code_emit.md R110, R113). The accumulator and
its count are read and written at their register widths (10_state.md R17); under the invariants of 10_state.md R24 no
sum or shift leaves them (R116; log 19). -/

namespace Sys2Proof.Machine

/-- The first two lines of `EmitCode` (R110): the code goes above the waiting bits. -/
def appendCode (code : BitVec 12) (s : State) : State :=
  { s with acc := s.acc ||| (code.setWidth 32 <<< s.curBits.toNat), curBits := s.curBits + s.nBits.setWidth 5 }

/-- The last two lines of `EmitCode`'s loop body (R110): the byte that left is shifted out. -/
def dropByte (s : State) : State := { s with acc := s.acc >>> 8, curBits := s.curBits - 8#5 }

/-- `EmitCode`'s loop (R110): whole bytes are drained. The argument bounds the iterations; three suffice for a 5-bit
count, two for every state the rules reach (R116). -/
def drainBytes : Nat → State → Except Fault State
  | 0, s => .ok s
  | n + 1, s =>
    if 8 ≤ s.curBits.toNat then (byteOut (s.acc.setWidth 8) s).bind (fun t => drainBytes n (dropByte t)) else .ok s

/-- `EmitCode(code)` (R110): packed at the width in force on entry, whole bytes drained, then the width updated. -/
def emitCode (code : BitVec 12) (s : State) : Except Fault State :=
  (drainBytes 3 (appendCode code s)).map widthUpdate

/-- `acc <- 0; cur_bits <- 0` (R113). -/
def emptyAcc (s : State) : State := { s with acc := 0#32, curBits := 0#5 }

/-- `FlushAcc()` (R113): the partial byte, its unused high bits 0, if there is one. -/
def flushAcc (s : State) : Except Fault State :=
  if s.curBits = 0#5 then .ok s else (byteOut (s.acc.setWidth 8) s).map emptyAcc

end Sys2Proof.Machine
end

