-- ==== Sys2Proof/Machine/StringTable.lean ====
section
/-! DEFINITION. The string table: KEY, HASH, Probe, Insert, ClearTable (41_string_table.md R100 to R104). -/

namespace Sys2Proof.Machine

/-- `KEY(ent, c) = (c << 12) | ent` (R100). -/
def keyOf (ent : BitVec 12) (c : BitVec 8) : BitVec 20 := c ++ ent

/-- The prefix field `key[11:0]` (R100). -/
def keyPrefix (k : BitVec 20) : BitVec 12 := k.extractLsb' 0 12

/-- The symbol field `key[19:12]` (R100). -/
def keySymbol (k : BitVec 20) : BitVec 8 := k.extractLsb' 12 8

/-- `HASH(ent, c) = (c << HSHIFT) ^ ent` (R101). -/
def hashOf (ent : BitVec 12) (c : BitVec 8) : Nat := (c.toNat <<< Config.hshift) ^^^ ent.toNat

/-- What Probe finds in one slot (R102). -/
inductive SlotLook where
  /-- `valid = 1` and the key is the one sought. -/
  | hit
  /-- `valid = 0`; the key is not looked at. -/
  | empty
  /-- `valid = 1` and another key. -/
  | other
  deriving DecidableEq, Repr

/-- `MemRead(HT[i], 1)` and Probe's two tests (R102). A slot the table does not list has `valid = 0` (log 2). -/
def lookSlot (t : List (Nat × HtEntry)) (k : BitVec 20) (i : Nat) : SlotLook :=
  match Memory.read t i with
  | none => .empty
  | some e => if !e.valid then .empty else if e.key = k then .hit else .other

/-- The displacement, from the first slot (R102): 1 when it is slot 0, `HSIZE - i` otherwise. -/
def displacement (i : Nat) : Nat := if i = 0 then 1 else Config.hsize - i

/-- The next slot (R102): the displacement is subtracted, wrapping by `HSIZE`. -/
def nextSlot (disp i : Nat) : Nat := if disp ≤ i then i - disp else i + Config.hsize - disp

/-- Probe's loop (R102). The first argument bounds the slots still to be read. -/
def probeLoop (t : List (Nat × HtEntry)) (k : BitVec 20) (disp : Nat) : Nat → Nat → Except Fault (Bool × Nat)
  | 0, _ => .error .probeDiverges
  | n + 1, i =>
    match lookSlot t k (nextSlot disp i) with
    | .hit => .ok (true, nextSlot disp i)
    | .empty => .ok (false, nextSlot disp i)
    | .other => probeLoop t k disp n (nextSlot disp i)

/-- `Probe(ent, c)` over a table (R102): hit or miss, and the slot where the search ended. `HSIZE - 1` further slots are
all there are: the sequence visits every slot once before it repeats (R106), so a search that reads them all in vain
never ends (log 11). -/
def probeTable (t : List (Nat × HtEntry)) (ent : BitVec 12) (c : BitVec 8) : Except Fault (Bool × Nat) :=
  match lookSlot t (keyOf ent c) (hashOf ent c) with
  | .hit => .ok (true, hashOf ent c)
  | .empty => .ok (false, hashOf ent c)
  | .other => probeLoop t (keyOf ent c) (displacement (hashOf ent c)) (Config.hsize - 1) (hashOf ent c)

/-- `Probe(ent, c)` (R102). A table whose `valid` bits hold no value cannot be read (R26; log 2). -/
def probe (ent : BitVec 12) (c : BitVec 8) (s : State) : Except Fault (Bool × Nat) :=
  match s.ht with
  | none => .error .htNoValue
  | some t => probeTable t ent c

/-- `HT[i].code`, which SYM reads after a hit (40_commands.md R81). -/
def slotCode (i : Nat) (s : State) : Except Fault (BitVec 12) :=
  match Memory.read (s.ht.getD []) i with
  | none => .error .htNoValue
  | some e => .ok e.code

/-- `Insert(i, ent, c, v)` (R103): the three fields of slot `i`, in one write. -/
def insertEntry (i : Nat) (ent : BitVec 12) (c : BitVec 8) (v : BitVec 12) (s : State) : State :=
  { s with ht := some (Memory.write (s.ht.getD []) i { valid := true, key := keyOf ent c, code := v }) }

/-- The slot with `valid <- 0`, its `key` and `code` as they were (R104). -/
def invalidate (x : Nat × HtEntry) : Nat × HtEntry := (x.1, { x.2 with valid := false })

/-- `ClearTable()` (R104): the `valid` bit of every slot. -/
def clearTable (s : State) : State := { s with ht := some ((s.ht.getD []).map invalidate) }

end Sys2Proof.Machine
end

