-- ==== Sys2Proof/Machine/Commands.lean ====
section
/-! DEFINITION. The commands START, SYM and END (40_commands.md R80 to R82) and the reserved opcode (30_encoding.md
R62). Every check stands before the first write (60_exceptions.md R133, R136). -/

namespace Sys2Proof.Machine

/-- START's writes before it emits `CLEAR` (R80; 10_state.md R25, middle column). -/
def beginFrame (b : BitVec 4) (s : State) : State :=
  clearTable
    { s with
      bpp := b
      nBits := BitVec.ofNat 4 (ics b + 1)
      freeEnt := BitVec.ofNat 13 (firstCode b)
      clearFlag := false
      ent := 0#12
      entValid := false
      acc := 0#32
      curBits := 0#5
      bufCnt := 0#8
      phase := .run }

/-- START after its checks (R80). -/
def startFrame (b : BitVec 4) (s : State) : Except Fault State :=
  emitCode (BitVec.ofNat 12 (clearCode b)) (beginFrame b s)

/-- `START bpp_arg` (R80). -/
def execStart (arg : BitVec 8) (s : State) : Result :=
  whenAccepting s <|
    if startBitsClear arg = false then .next (takeFault .illegalCommand s)
    else if s.phase = .run then .next (takeFault .protocol s)
    else if legalBpp (bppField arg) = false then .next (takeFault .illegalConfig s)
    else toOutcome (startFrame (bppField arg) s)

/-- SYM on a hit (R81): the prefix becomes the code of the longer string. -/
def extendPrefix (i : Nat) (s : State) : Except Fault State :=
  (slotCode i s).map (fun code => { s with ent := code })

/-- SYM on a miss with room (R81): the pair is entered under `free_ent`, which is then incremented. -/
def enterString (i : Nat) (c : BitVec 8) (s : State) : State :=
  { insertEntry i s.ent c (s.freeEnt.setWidth 12) s with freeEnt := s.freeEnt + 1#13 }

/-- SYM on a miss with a full table (R81): the table is emptied and `CLEAR` is emitted at the width in force, whose
width update resets the width and `clear_flag`. -/
def restartTable (s : State) : Except Fault State :=
  emitCode (BitVec.ofNat 12 (clearCode s.bpp))
    (markClear { clearTable s with freeEnt := BitVec.ofNat 13 (firstCode s.bpp) })

/-- SYM on a miss that ended at slot `i` (R81): the prefix is emitted, the pair entered or the table emptied, and the
symbol is the new prefix. -/
def missSymbol (i : Nat) (c : BitVec 8) (s : State) : Except Fault State :=
  (emitCode s.ent s).bind fun s₁ =>
    (if s₁.freeEnt.toNat < Config.maxMaxCode then .ok (enterString i c s₁) else restartTable s₁).map (restartPrefix c)

/-- SYM after its checks (R81). -/
def consumeSymbol (c : BitVec 8) (s : State) : Except Fault State :=
  if s.entValid = false then .ok (takePrefix c s)
  else (probe s.ent c s).bind fun r => if r.1 then extendPrefix r.2 s else missSymbol r.2 c s

/-- `SYM c` (R81). -/
def execSym (c : BitVec 8) (s : State) : Result :=
  whenAccepting s <|
    if s.phase ≠ .run then .next (takeFault .protocol s)
    else if symbolInRange s.bpp c = false then .next (takeFault .symbolRange s)
    else toOutcome (consumeSymbol c s)

/-- END's last three lines (R82). -/
def closeFrame (s : State) : State := { terminate s with entValid := false, phase := .done }

/-- END after its checks (R82). -/
def finishFrame (s : State) : Except Fault State :=
  (emitCode s.ent s).bind fun s₁ =>
    (emitCode (BitVec.ofNat 12 (eofCode s₁.bpp)) s₁).bind fun s₂ =>
      (flushAcc s₂).bind fun s₃ => (flushBlock s₃).map closeFrame

/-- `END` (R82). -/
def execEnd (arg : BitVec 8) (s : State) : Result :=
  whenAccepting s <|
    if endBitsClear arg = false then .next (takeFault .illegalCommand s)
    else if s.phase ≠ .run then .next (takeFault .protocol s)
    else if s.entValid = false then .next (takeFault .emptyInput s)
    else toOutcome (finishFrame s)

/-- A word with `op = 0b11` raises `IllegalCommand`, whatever its other bits (R62 a). -/
def execReserved (_arg : BitVec 8) (s : State) : Result :=
  whenAccepting s (.next (takeFault .illegalCommand s))

/-- A word that matches no row raises `IllegalCommand` (R61, R62 b and c; log 8). -/
def execUndecoded (s : State) : Result :=
  whenAccepting s (.next (takeFault .illegalCommand s))

end Sys2Proof.Machine
end

