-- ==== Sys2Proof/Machine/Dispatch.lean ====
section
/-! DEFINITION. One arm per constructor of Instr. -/

namespace Sys2Proof.Machine

def exec (i : Instr) (s : State) : Host.Outcome State Fault Refusal :=
  match i with
  | .start arg => Sys2Proof.Machine.execStart arg s
  | .sym c => Sys2Proof.Machine.execSym c s
  | .endFrame arg => Sys2Proof.Machine.execEnd arg s
  | .reserved arg => Sys2Proof.Machine.execReserved arg s

end Sys2Proof.Machine
end

