-- ==== Sys2Proof/Machine/Fetch.lean ====
section
/-! DEFINITION. What the block does with its next input: accept a command word, take RESET, wait (10_state.md R21, R28,
R30; 60_exceptions.md R137, R146; 70_reset_and_hazards.md R150, R151). -/

namespace Sys2Proof.Machine

/-- A command word is accepted: decoded from the bits presented (20_memory.md R53), then executed. -/
def acceptWord (w : CmdWord) (s : State) : Result :=
  match decode w with
  | .ok i => exec i s
  | .error _ => execUndecoded s

/-- RESET asserted while the word executes (R151): the state is the RESET state, and `OUT` has gained some prefix, not
specified, of the bytes the interrupted step would have appended (log 5). -/
def cutByReset (w : CmdWord) (s : State) : Result :=
  match acceptWord w s with
  | .next t =>
    .next (takeReset { s with out := s.out ++ (t.out.drop s.out.length).take (Config.cutLength s.freeCount) })
  | .fault r => .fault r
  | .refused r => .refused r

/-- In phase FAULT no word is accepted (R137), and none is lost (70_reset_and_hazards.md R154): what the environment still
presents once it has asserted RESET, if it does. A word that waits stays presented, unless the environment takes it back
(log 4). -/
def afterReset : List Input → Option (List Input)
  | [] => none
  | .word w :: rest => (afterReset rest).map fun l => .word w :: l
  | .wordUntilReset _ :: rest => afterReset rest
  | .reset :: rest => some rest
  | .cutWord w :: rest => some (.word w :: rest)

/-- One step in phase FAULT: RESET if it is asserted, otherwise there is no transition and nothing is consumed (R137,
R138). -/
def stepInFault (s : State) : Result :=
  match afterReset s.inputs with
  | some rest => .next (takeReset { s with inputs := rest })
  | none => .fault .faultPhase

/-- One step outside FAULT: the next input is consumed. With nothing presented the block waits and keeps all its state
(60_exceptions.md R145; log 3). -/
def stepAccepting (s : State) : Result :=
  match s.inputs with
  | [] => .next s
  | .word w :: rest => acceptWord w { s with inputs := rest }
  | .wordUntilReset w :: rest => acceptWord w { s with inputs := rest }
  | .reset :: rest => .next (takeReset { s with inputs := rest })
  | .cutWord w :: rest => cutByReset w { s with inputs := rest }

/-- One step of the block. -/
def stepInput (s : State) : Result :=
  if s.phase = .fault then stepInFault s else stepAccepting s

/-- The word with bits `w` is what the environment presents next. -/
def presentWord (w : CmdWord) (s : State) : State := { s with inputs := .word w :: s.inputs }

end Sys2Proof.Machine
end

