-- ==== Sys2Proof/Machine/Step.lean ====
section
/-! DEFINITION. The step function and where it takes its next command from. -/

namespace Sys2Proof.Machine

/-- One step: one accepted command or one RESET event (00_scope.md R6). -/
def step (s : State) : Host.Outcome State Fault Refusal := stepInput s

/-- `s` with the command word of bits `w` presented next on the command port (log 7). -/
def State.withFetchWord (s : State) (_nbits w : Nat) : State := presentWord (BitVec.ofNat 10 w) s

end Sys2Proof.Machine
end

