-- ==== Sys2Proof/Machine/Assembly.lean ====
section
/-! DEFINITION. The textual notation for command sequences and its pseudo-instructions (30_encoding.md R69, R70), as
abstract syntax with the command words each line stands for. -/

namespace Sys2Proof.Machine

/-- The word `START b` stands for, `0x000 + b` (R69). -/
def startWord (b : BitVec 4) : CmdWord := 0x000#10 + b.setWidth 10

/-- The word `SYM c` stands for, `0x100 + c` (R69). -/
def symWord (c : BitVec 8) : CmdWord := 0x100#10 + c.setWidth 10

/-- The word `END` stands for (R69). -/
def endWord : CmdWord := 0x200#10

/-- One line of the notation (R69, R70). -/
inductive AsmLine where
  | start (b : BitVec 4)
  | sym (c : BitVec 8)
  | endFrame
  /-- `.word w`: any raw command word. -/
  | dotWord (w : CmdWord)
  /-- The reset event, not a command word. -/
  | reset
  /-- `SYMS c1 c2 ... cn`. -/
  | syms (cs : List (BitVec 8))
  /-- `REP c, n`. -/
  | rep (c : BitVec 8) (n : Nat)
  /-- `FRAME b: c1 c2 ... cn`. -/
  | frame (b : BitVec 4) (cs : List (BitVec 8))
  deriving DecidableEq, Repr

/-- The commands `SYM c1; ...; SYM cn` (R70). -/
def symInputs (cs : List (BitVec 8)) : List Input := cs.map fun c => .word (symWord c)

/-- The commands of one frame (R70). -/
def frameInputs (b : BitVec 4) (cs : List (BitVec 8)) : List Input :=
  .word (startWord b) :: symInputs cs ++ [.word endWord]

/-- What a line makes the environment present (R69, R70). -/
def AsmLine.inputs : AsmLine → List Input
  | .start b => [.word (startWord b)]
  | .sym c => [.word (symWord c)]
  | .endFrame => [.word endWord]
  | .dotWord w => [.word w]
  | .reset => [.reset]
  | .syms cs => symInputs cs
  | .rep c n => symInputs (List.replicate n c)
  | .frame b cs => frameInputs b cs

/-- What a command sequence makes the environment present. -/
def assemble (lines : List AsmLine) : List Input := lines.flatMap AsmLine.inputs

/-- Decimal operands separated by a space (R69). -/
def operandText (cs : List (BitVec 8)) : String := String.intercalate " " (cs.map fun c => toString c.toNat)

/-- A line as text (R69, R70). -/
def AsmLine.text : AsmLine → String
  | .start b => "START " ++ toString b.toNat
  | .sym c => "SYM " ++ toString c.toNat
  | .endFrame => "END"
  | .dotWord w => ".word " ++ toString w.toNat
  | .reset => "RESET"
  | .syms cs => "SYMS " ++ operandText cs
  | .rep c n => "REP " ++ toString c.toNat ++ ", " ++ toString n
  | .frame b cs => "FRAME " ++ toString b.toNat ++ ": " ++ operandText cs

end Sys2Proof.Machine
end

