-- ==== Sys2Proof/Machine/CodeStream.lean ====
section
/-! DEFINITION. The output encoding as a whole, beside the machine: how emitted codes become payload bytes
(20_memory.md R43) and sub-blocks (30_encoding.md R67), which codes and widths a frame emits (30_encoding.md R65,
40_commands.md R84), and the standard decoder that is the yardstick of correctness (42_code_emit.md R115). The step
function uses none of it. -/

namespace Sys2Proof.Machine

/-- An emitted code: its value and the width it is written at. -/
abbrev Emitted := Nat × Nat

/-- The integer `S` of R43: each code above all the codes before it. -/
def streamValue : List Emitted → Nat
  | [] => 0
  | (k, w) :: rest => k + 2 ^ w * streamValue rest

/-- The bit count `T` of R43. -/
def streamLength : List Emitted → Nat
  | [] => 0
  | (_, w) :: rest => w + streamLength rest

/-- The `n` bytes of the number `v`, least significant first. -/
def bytesOf (v : Nat) : Nat → List Byte
  | 0 => []
  | n + 1 => BitVec.ofNat 8 v :: bytesOf (v / 256) n

/-- The payload of a code sequence (R43): `p_j = (S >> (8*j)) & 0xFF` for `j < ceil(T/8)`. -/
def payloadOf (codes : List Emitted) : List Byte := bytesOf (streamValue codes) ((streamLength codes + 7) / 8)

/-- The payload cut into groups of 255 bytes, each led by its length (R67). The first argument bounds the groups. -/
def dataBlocks : Nat → List Byte → List Byte
  | 0, _ => []
  | n + 1, payload =>
    if payload = [] then []
    else
      BitVec.ofNat 8 (payload.take Config.bufCap).length ::
        (payload.take Config.bufCap ++ dataBlocks n (payload.drop Config.bufCap))

/-- `frame_bytes` (R67). -/
def frameBytes (payload : List Byte) : List Byte := dataBlocks payload.length payload ++ [0x00#8]

/-- Undoes the framing (R67): the payload and the bytes after the terminator. The first argument bounds the blocks. -/
def unframe : Nat → List Byte → Option (List Byte × List Byte)
  | 0, _ => none
  | _ + 1, [] => none
  | n + 1, len :: rest =>
    if len = 0x00#8 then some ([], rest)
    else if rest.length < len.toNat then none
    else (unframe n (rest.drop len.toNat)).map fun r => (rest.take len.toNat ++ r.1, r.2)

/-- The variables of the abstract algorithm (R84). -/
structure FrameState where
  /-- `M`: from (code so far, symbol) to the code of the longer string. -/
  map : List ((Nat × Nat) × Nat)
  /-- `free`. -/
  free : Nat
  /-- `w`. -/
  width : Nat
  /-- `p`. -/
  code : Nat
  deriving DecidableEq, Repr

/-- `if free > MAXCODE(w) and w < 12: w <- w + 1` (R84). -/
def widen (free w : Nat) : Nat := if 2 ^ w - 1 < free ∧ w < Config.maxBits then w + 1 else w

/-- The loop body of R84 for one symbol: the new variables and the codes emitted. -/
def frameSymbol (bpp : BitVec 4) (f : FrameState) (c : Nat) : FrameState × List Emitted :=
  match f.map.lookup (f.code, c) with
  | some v => ({ f with code := v }, [])
  | none =>
    if f.free < Config.maxMaxCode then
      ({ map := ((f.code, c), f.free) :: f.map, free := f.free + 1, width := widen f.free f.width, code := c },
        [(f.code, f.width)])
    else
      ({ map := [], free := firstCode bpp, width := ics bpp + 1, code := c },
        [(f.code, f.width), (clearCode bpp, widen f.free f.width)])

/-- The loop of R84: the codes the symbols make the frame emit, and the variables at the end. -/
def frameSymbols (bpp : BitVec 4) (f : FrameState) : List (BitVec 8) → FrameState × List Emitted
  | [] => (f, [])
  | c :: cs =>
    let r := frameSymbol bpp f c.toNat
    let q := frameSymbols bpp r.1 cs
    (q.1, r.2 ++ q.2)

/-- The last two lines of R84. -/
def frameEnd (bpp : BitVec 4) (f : FrameState) : List Emitted :=
  [(f.code, f.width), (eofCode bpp, widen f.free f.width)]

/-- The variables of R84 after its first three lines. -/
def frameStart (bpp : BitVec 4) (c : BitVec 8) : FrameState :=
  { map := [], free := firstCode bpp, width := ics bpp + 1, code := c.toNat }

/-- The codes and widths of the frame `START bpp; SYM c; SYM cs...; END` (R84). -/
def frameCodes (bpp : BitVec 4) (c : BitVec 8) (cs : List (BitVec 8)) : List Emitted :=
  let r := frameSymbols bpp (frameStart bpp c) cs
  (clearCode bpp, ics bpp + 1) :: r.2 ++ frameEnd bpp r.1

/-- `bitlength(x)`: the number of bits needed to write `x` (R65). -/
def bitLength (x : Nat) : Nat := if x = 0 then 0 else Nat.log2 x + 1

/-- The closed form of the width of the `j`-th data code after a `CLEAR` (R65), `j` counted from 1. -/
def dataCodeWidth (bpp : BitVec 4) (j : Nat) : Nat :=
  if j ≤ 1 then ics bpp + 1 else min Config.maxBits (max (ics bpp + 1) (bitLength (firstCode bpp + j - 2)))

/-- The variables of the standard decoder (R115); the spec supplies it from general knowledge (log 18). -/
structure DecoderState where
  /-- The unread bits, as a number. -/
  bits : Nat
  /-- How many bits are unread. -/
  left : Nat
  /-- `w`. -/
  width : Nat
  /-- The strings of the codes from `clear + 2` on, in order; `avail` is `clear + 2` more than their number. -/
  strings : List (List Nat)
  /-- The string of `prev`. -/
  prev : Option (List Nat)
  deriving DecidableEq, Repr

/-- `avail` (R115). -/
def DecoderState.avail (size : Nat) (d : DecoderState) : Nat := 2 ^ size + 2 + d.strings.length

/-- `table[code]` (R115). -/
def DecoderState.string (size : Nat) (d : DecoderState) (code : Nat) : Option (List Nat) :=
  if code < 2 ^ size then some [code]
  else if code < 2 ^ size + 2 then none
  else d.strings[code - (2 ^ size + 2)]?

/-- The decoder's step on a data code (R115): the string it stands for, and the variables after it. -/
def DecoderState.dataCode (size : Nat) (d : DecoderState) (code : Nat) : Option (List Nat × DecoderState) :=
  match d.prev with
  | none => if code < 2 ^ size then some ([code], { d with prev := some [code] }) else none
  | some prev =>
    let found :=
      if code < d.avail size then d.string size code
      else if code = d.avail size then some (prev ++ prev.take 1)
      else none
    found.map fun str =>
      if d.avail size < Config.maxMaxCode then
        (str,
          { d with
            strings := d.strings ++ [prev ++ str.take 1]
            width := if 2 ^ d.width ≤ d.avail size + 1 ∧ d.width < Config.maxBits then d.width + 1 else d.width
            prev := some str })
      else (str, { d with prev := some str })

/-- The decoder's loop (R115): the symbols and the number of unread bits when it stops at `eoi`. The first argument bounds
the codes read. -/
def decoderLoop (size : Nat) : Nat → DecoderState → Option (List Nat × Nat)
  | 0, _ => none
  | n + 1, d =>
    if d.left < d.width then none
    else
      let code := d.bits % 2 ^ d.width
      let d' := { d with bits := d.bits / 2 ^ d.width, left := d.left - d.width }
      if code = 2 ^ size then decoderLoop size n { d' with width := size + 1, strings := [], prev := none }
      else if code = 2 ^ size + 1 then some ([], d'.left)
      else
        match d'.dataCode size code with
        | none => none
        | some (str, d'') => (decoderLoop size n d'').map fun r => (str ++ r.1, r.2)

/-- The number a payload is the little-endian representation of (20_memory.md R44). -/
def payloadValue : List Byte → Nat
  | [] => 0
  | b :: rest => b.toNat + 256 * payloadValue rest

/-- `Decode(min_code_size, payload)` (R115): the symbols, and how many payload bits were left unread. -/
def standardDecode (size : Nat) (payload : List Byte) : Option (List Nat × Nat) :=
  decoderLoop size (8 * payload.length + 1)
    { bits := payloadValue payload, left := 8 * payload.length, width := size + 1, strings := [], prev := none }

end Sys2Proof.Machine
end

