-- ==== Sys2Proof/Safety.lean ====
section
/-! DEFINITION. What holds of a safe state: the invariants of 10_state.md R24, extended to every phase, and what it is
for a run to be final or to have gone wrong (60_exceptions.md R137, R147). -/

namespace Sys2Proof.Machine

/-- The slots with `valid = 1`. -/
def liveEntries (t : List (Nat × HtEntry)) : List (Nat × HtEntry) := t.filter fun x => x.2.valid

/-- The abstract map `M` of a table (41_string_table.md R105): the code of a (prefix, symbol) pair. -/
def tableMaps (t : List (Nat × HtEntry)) (ent : BitVec 12) (c : BitVec 8) (code : BitVec 12) : Prop :=
  ∃ x ∈ liveEntries t, keyPrefix x.2.key = ent ∧ keySymbol x.2.key = c ∧ x.2.code = code

/-- A legal prefix below `bound` (10_state.md R24 item 5): a symbol or an assigned code, never `CLEAR` or `EOFC`. -/
def legalPrefix (bpp : BitVec 4) (bound e : Nat) : Prop :=
  e < bound ∧ e ≠ clearCode bpp ∧ e ≠ eofCode bpp ∧ (e < 2 ^ bpp.toNat ∨ firstCode bpp ≤ e)

/-- Items 9 and 10 of R24, for the table of a frame whose next code is `free`. -/
structure TableInv (bpp : BitVec 4) (free : Nat) (t : List (Nat × HtEntry)) : Prop where
  /-- Exactly `free_ent - FIRST` entries are valid. -/
  count : (liveEntries t).length = free - firstCode bpp
  /-- Their codes are exactly `FIRST .. free_ent - 1` ... -/
  codes : ∀ v, (∃ x ∈ liveEntries t, x.2.code.toNat = v) ↔ firstCode bpp ≤ v ∧ v < free
  /-- ... each once. -/
  codesDiffer : ((liveEntries t).map fun x => x.2.code).Nodup
  /-- Their keys are pairwise different. -/
  keysDiffer : ((liveEntries t).map fun x => x.2.key).Nodup
  /-- The prefix of each is a legal prefix less than its code. -/
  prefixes : ∀ x ∈ liveEntries t, legalPrefix bpp x.2.code.toNat (keyPrefix x.2.key).toNat
  /-- The symbol of each is less than `2^bpp`. -/
  symbols : ∀ x ∈ liveEntries t, (keySymbol x.2.key).toNat < 2 ^ bpp.toNat
  /-- Probe on the key of each finds it. -/
  reachable : ∀ x ∈ liveEntries t, probeTable t (keyPrefix x.2.key) (keySymbol x.2.key) = .ok (true, x.1)

/-- The buffer between two operations: item 8 of R24, and every held byte has a value (R26). -/
structure BufInv (s : State) : Prop where
  bufCnt : s.bufCnt.toNat ≤ 254
  held : ∀ j < s.bufCnt.toNat, (Memory.read s.buf j).isSome

/-- The accumulator and the buffer between two operations: items 7 and 8 of R24. -/
structure StreamInv (s : State) : Prop extends BufInv s where
  curBits : s.curBits.toNat ≤ 7
  acc : s.acc.toNat < 2 ^ s.curBits.toNat

/-- Items 1 to 10 of R24: what holds in phase RUN. -/
structure RunInv (s : State) : Prop where
  bpp : legalBpp s.bpp = true
  width : ics s.bpp + 1 ≤ s.nBits.toNat ∧ s.nBits.toNat ≤ Config.maxBits
  free : firstCode s.bpp ≤ s.freeEnt.toNat ∧ s.freeEnt.toNat ≤ Config.maxMaxCode
  fits : s.freeEnt.toNat ≤ 2 ^ s.nBits.toNat
  ent : s.entValid = true → legalPrefix s.bpp s.freeEnt.toNat s.ent.toNat
  stream : StreamInv s
  table : ∃ t, s.ht = some t ∧ TableInv s.bpp s.freeEnt.toNat t

/-- The invariant of every phase. -/
structure BlockInv (s : State) : Prop where
  /-- Both memories are in canonical form. -/
  memory : s.memoryWf
  /-- `fault_code` is non-zero exactly in FAULT (R20; 60_exceptions.md R136, R150). -/
  faultCode : s.phase = .fault ↔ s.faultCode ≠ .noFault
  /-- Nothing raises code 6 (60_exceptions.md R131). -/
  noCodeSix : s.faultCode ≠ .invariantViolation
  /-- `clear_flag` is 0 at every command boundary (R16). -/
  clearFlag : s.clearFlag = false
  /-- Outside a frame there is no prefix (R13, R25). -/
  noPrefix : s.phase = .idle ∨ s.phase = .done → s.entValid = false
  /-- END leaves nothing waiting (40_commands.md R82, 92_eei_decisions.md D29). -/
  drained : s.phase = .done → s.acc = 0#32 ∧ s.curBits = 0#5 ∧ s.bufCnt = 0#8
  /-- R24. -/
  running : s.phase = .run → RunInv s

/-- The bytes waiting in the buffer, `BUF[0 .. buf_cnt-1]` (R19). -/
def heldBytes (s : State) : List Byte := (Memory.readRange s.buf 0 s.bufCnt.toNat).getD []

/-- What has been output and what waits in the buffer. -/
def streamOf (s : State) : List Byte × List Byte := (s.out, heldBytes s)

/-- What one more payload byte does to the pair (`OUT`, held bytes), in words of 43_subblock.md R120. -/
def pushByte (x : List Byte × List Byte) (b : Byte) : List Byte × List Byte :=
  if x.2.length + 1 = Config.bufCap then (x.1 ++ BitVec.ofNat 8 Config.bufCap :: (x.2 ++ [b]), []) else (x.1, x.2 ++ [b])

/-- What the flush at the end of a frame and the terminator add to the pair (R121, R122): `OUT` afterwards. -/
def closeStream (x : List Byte × List Byte) : List Byte :=
  x.1 ++ (if x.2 = [] then [] else BitVec.ofNat 8 x.2.length :: x.2) ++ [0x00#8]

/-- The waiting bits with `code` above them, as a number (42_code_emit.md R110). -/
def emitValue (s : State) (code : Nat) : Nat := s.acc.toNat + code * 2 ^ s.curBits.toNat

/-- How many bits those are. -/
def emitBits (s : State) : Nat := s.curBits.toNat + s.nBits.toNat

/-- The state in which SYM and END may emit the prefix: items 1, 2, 6, 7 and 8 of R24, and the prefix fits the width (item
5). -/
structure EmitReady (s : State) : Prop where
  bpp : legalBpp s.bpp = true
  width : ics s.bpp + 1 ≤ s.nBits.toNat ∧ s.nBits.toNat ≤ Config.maxBits
  ent : s.ent.toNat < 2 ^ s.nBits.toNat
  clearFlag : s.clearFlag = false
  stream : StreamInv s

/-- The width in force after one emission (R112, with `clear_flag` 0). -/
def nextWidth (s : State) : Nat := widen s.freeEnt.toNat s.nBits.toNat

/-- How many payload bytes `SYM c` stores in `BUF` (R81, R116): none on a first symbol or a hit; the whole bytes of the
prefix, and of `CLEAR` when the table is full, on a miss. -/
def symbolBytes (c : BitVec 8) (s : State) : Nat :=
  if s.entValid = false then 0
  else
    match probe s.ent c s with
    | .ok (false, _) => if s.freeEnt.toNat < Config.maxMaxCode then emitBits s / 8 else (emitBits s + nextWidth s) / 8
    | _ => 0

/-- The bits END writes: the prefix and `EOFC` above the waiting bits, as a number (R82). -/
def endValue (s : State) : Nat := emitValue s s.ent.toNat + eofCode s.bpp * 2 ^ emitBits s

/-- How many payload bytes END stores in `BUF`, the partial byte included (R82, R113). -/
def endBytes (s : State) : Nat := (emitBits s + nextWidth s + 7) / 8

/-- What asserts RESET: the event itself, or a word presented with RESET asserted before it is done (R150, R151). -/
def assertsReset : Input → Bool
  | .reset => true
  | .cutWord _ => true
  | .word _ => false
  | .wordUntilReset _ => false

/-- What a word the environment presents becomes when RESET is asserted before it is accepted: it stays presented, unless
it was presented until RESET only (R154; log 4). -/
def staysPresented : Input → Bool
  | .wordUntilReset _ => false
  | .word _ => true
  | .reset => true
  | .cutWord _ => true

/-- A run has gone wrong when its last state is in FAULT (60_exceptions.md R137, R147). -/
def GoneWrong (s : State) : Prop := s.phase = .fault

/-- A run is final when nothing more is presented and the phase is IDLE or DONE (R147). -/
def Final (s : State) : Prop := s.inputs = [] ∧ (s.phase = .idle ∨ s.phase = .done)

/-- A run of `n` steps from `s` ends in `t`. -/
def Reaches (n : Nat) (s t : State) : Prop := Sys2Proof.core.run n s = .next t

/-- A legal frame: a legal `bpp` and symbols of its palette (40_commands.md R83). -/
def LegalFrame (b : BitVec 4) (cs : List (BitVec 8)) : Prop :=
  legalBpp b = true ∧ cs ≠ [] ∧ ∀ c ∈ cs, symbolInRange b c = true

end Sys2Proof.Machine
end

