-- ==== Sys2Proof/Certificates/Slice0/Obligations.lean ====
section
/-! DEFINITION. The statements for the provers, from the numbered rules of spec/. -/

open Sys2Proof Sys2Proof.Machine

/-! Encoding -/

/-- R60, R61: decoding the word of a well-formed command gives the command back, and its word fits its own row of the
opcode table and no other. -/
def Obligations.DecodeRecoversCommand : Prop :=
  ∀ i : Instr, i.wellFormed = true →
    decode (encode i) = .ok i ∧ ∀ r ∈ opcodeRows, (r.fits (encode i) = true ↔ r = i.row)

/-- R61: a word the decoder accepts is the word of the command it reads, which is well-formed; a word it rejects fits
no row. -/
def Obligations.DecodedWordIsItsEncoding : Prop :=
  ∀ w : CmdWord,
    (∀ i, decode w = .ok i → encode i = w ∧ i.wellFormed = true) ∧
    (∀ e, decode w = .error e → ∀ r ∈ opcodeRows, r.fits w = false)

/-- R61: words written out bit by bit, `op` in bits 9:8 and `arg` in bits 7:0. -/
def Obligations.SampleWordsDecode : Prop :=
  decode 0b0000000010#10 = .ok (.start 2#8) ∧ decode 0b0111111111#10 = .ok (.sym 255#8) ∧
    decode 0b1000000000#10 = .ok (.endFrame 0#8) ∧ decode 0b1100000101#10 = .ok (.reserved 5#8) ∧
    decode 0b0000010010#10 = .error (.startReservedBits 0x012#10) ∧
    decode 0b1000000001#10 = .error (.endReservedBits 0x201#10)

/-- R69: the notation's words are those of the commands it names. -/
def Obligations.AssembledWordsDecode : Prop :=
  (∀ b : BitVec 4, decode (startWord b) = .ok (.start (b.setWidth 8)) ∧ bppField (b.setWidth 8) = b) ∧
    (∀ c : BitVec 8, decode (symWord c) = .ok (.sym c)) ∧ decode endWord = .ok (.endFrame 0#8)

/-- R62: every one of the 1024 words is one of the three commands or faults; the clauses take its items (a), (b), (c),
(d), the legal START words, (e) and the one END word in turn. -/
def Obligations.EveryWordIsCommandOrFault : Prop :=
  ∀ (s : State) (w : CmdWord) (rest : List Input), s.phase ≠ .fault →
    s.inputs = .word w :: rest ∨ s.inputs = .wordUntilReset w :: rest →
    (0x300 ≤ w.toNat → step s = .next { s with inputs := rest, phase := .fault, faultCode := .illegalCommand }) ∧
    (0x010 ≤ w.toNat → w.toNat ≤ 0x0FF →
      step s = .next { s with inputs := rest, phase := .fault, faultCode := .illegalCommand }) ∧
    (0x201 ≤ w.toNat → w.toNat ≤ 0x2FF →
      step s = .next { s with inputs := rest, phase := .fault, faultCode := .illegalCommand }) ∧
    (w.toNat < 0x010 → w.toNat ∉ [1, 2, 4, 8] →
      step s = .next
        { s with
          inputs := rest, phase := .fault, faultCode := if s.phase = .run then .protocol else .illegalConfig }) ∧
    (w.toNat ∈ [1, 2, 4, 8] → decode w = .ok (.start (argOf w)) ∧ legalBpp (bppField (argOf w)) = true) ∧
    (0x100 ≤ w.toNat → w.toNat ≤ 0x1FF →
      decode w = .ok (.sym (argOf w)) ∧
        (s.phase = .run → 2 ^ s.bpp.toNat ≤ (argOf w).toNat →
          step s = .next { s with inputs := rest, phase := .fault, faultCode := .symbolRange })) ∧
    (w.toNat = 0x200 → decode w = .ok (.endFrame 0#8))

/-! The step -/

/-- R6, R28, R53: outside FAULT a step with a command word presented is `exec` of the decoded command, the word having
been consumed. -/
def Obligations.StepRunsDecodedCommand : Prop :=
  ∀ (s : State) (w : CmdWord) (rest : List Input) (i : Instr), s.phase ≠ .fault →
    s.inputs = .word w :: rest ∨ s.inputs = .wordUntilReset w :: rest →
    decode w = .ok i → step s = exec i { s with inputs := rest }

/-- The model's choice of log 3, for R145's "Between commands it is idle in the ordinary sense and keeps all its
state": a step with nothing presented is the state itself. -/
def Obligations.StepWaitsForInput : Prop :=
  ∀ s : State, s.phase ≠ .fault → s.inputs = [] → step s = .next s

/-- R25, column RESET: what the spec gives a value, and what it says holds none. -/
def Obligations.ResetStateValues : Prop :=
  State.reset.phase = .idle ∧ State.reset.faultCode = .noFault ∧ State.reset.entValid = false ∧
    State.reset.clearFlag = false ∧ State.reset.ht = none ∧ (∀ j, Memory.read State.reset.buf j = none)

/-- R150: RESET is taken in every phase, FAULT included; it leaves the RESET values and `OUT` as it was, and the only
command that does not fault after it is START. -/
def Obligations.ResetTakenInEveryPhase : Prop :=
  ∀ (s : State) (rest : List Input), s.inputs = .reset :: rest →
    ∃ t, step s = .next t ∧ t.phase = .idle ∧ t.faultCode = .noFault ∧ t.entValid = false ∧ t.clearFlag = false ∧
      t.ht = none ∧ (∀ j, Memory.read t.buf j = none) ∧ t.inputs = rest ∧ t.out = s.out ∧
      (∀ a, startBitsClear a = true → legalBpp (bppField a) = true → ∃ u, exec (.start a) t = .next u ∧ u.phase = .run) ∧
      ∀ i u, exec i t = .next u → u.phase = .fault ∨ ∃ a, i = .start a

/-- R151, whose free choice the model covers as log 5 says: RESET asserted while a command executes leaves the RESET
state, and `OUT` has gained some beginning, whatever its length, of the bytes the command would have appended. -/
def Obligations.ResetInsideStepCutsOutput : Prop :=
  ∀ (s u : State) (w : CmdWord) (rest : List Input), s.phase ≠ .fault → s.inputs = .cutWord w :: rest →
    acceptWord w { s with inputs := rest } = .next u →
    ∃ t, step s = .next t ∧ t.phase = .idle ∧ t.faultCode = .noFault ∧ t.entValid = false ∧ t.clearFlag = false ∧
      t.ht = none ∧ (∀ j, Memory.read t.buf j = none) ∧ t.inputs = rest ∧ s.out <+: t.out ∧ t.out <+: u.out

/-- R137: in phase FAULT `cmd_ready` is low and no command word has a transition, executed or presented; the run has
gone wrong. -/
def Obligations.FaultPhaseAcceptsNothing : Prop :=
  ∀ s : State, s.phase = .fault →
    s.cmdReady = false ∧ GoneWrong s ∧ (∀ i, exec i s = .fault .faultPhase) ∧
      (∀ w, acceptWord w s = .fault .faultPhase) ∧
      ((∀ x ∈ s.inputs, assertsReset x = false) → step s = .fault .faultPhase)

/-- R138: the only exit from FAULT is RESET, which makes `phase` IDLE and `fault_code` 0; no command leaves it, and
none is executed in it. -/
def Obligations.OnlyResetLeavesFault : Prop :=
  ∀ s : State, s.phase = .fault →
    (∀ i t, exec i s ≠ .next t) ∧ (∀ w t, acceptWord w s ≠ .next t) ∧
    (∀ rest, s.inputs = .reset :: rest → ∃ t, step s = .next t) ∧
    (∀ t, step s = .next t →
      (∃ x ∈ s.inputs, assertsReset x = true) ∧ t.phase = .idle ∧ t.faultCode = .noFault ∧ t.out = s.out)

/-- R154, R30, with the model's choices of log 4 and log 16: `cmd_ready`, read between steps, is low exactly in FAULT.
A word presented there is not accepted, executed or lost and raises no fault: with no RESET nothing is consumed; once
RESET is asserted, behind the waiting words or while one waits, each is still presented, in order, unless the
environment took it back. -/
def Obligations.WaitingWordIsNotLost : Prop :=
  (∀ s : State, s.cmdReady = true ↔ s.phase ≠ .fault) ∧
  ∀ (s : State) (waiting rest : List Input), s.phase = .fault → (∀ x ∈ waiting, assertsReset x = false) →
    (s.inputs = waiting → step s = .fault .faultPhase) ∧
    (s.inputs = waiting ++ .reset :: rest →
      ∃ t, step s = .next t ∧ t.phase = .idle ∧ t.faultCode = .noFault ∧ t.out = s.out ∧
        t.inputs = waiting.filter staysPresented ++ rest) ∧
    (∀ w, s.inputs = waiting ++ .cutWord w :: rest →
      ∃ t, step s = .next t ∧ t.phase = .idle ∧ t.faultCode = .noFault ∧ t.out = s.out ∧
        t.inputs = waiting.filter staysPresented ++ .word w :: rest)

/-- R22: the five status outputs as functions of the state, with the numbers R12 and R130 give the phases and the
fault codes; `min_code_size` is meaningful for a legal `bpp`. -/
def Obligations.StatusOutputs : Prop :=
  ∀ s : State,
    (s.stPhase = 0#2 ↔ s.phase = .idle) ∧ (s.stPhase = 1#2 ↔ s.phase = .run) ∧ (s.stPhase = 2#2 ↔ s.phase = .done) ∧
    (s.stPhase = 3#2 ↔ s.phase = .fault) ∧ (s.doneOut = true ↔ s.phase = .done) ∧
    (s.faultOut = true ↔ s.phase = .fault) ∧
    (s.stFault = 0#3 ↔ s.faultCode = .noFault) ∧ (s.stFault = 1#3 ↔ s.faultCode = .illegalCommand) ∧
    (s.stFault = 2#3 ↔ s.faultCode = .illegalConfig) ∧ (s.stFault = 3#3 ↔ s.faultCode = .protocol) ∧
    (s.stFault = 4#3 ↔ s.faultCode = .symbolRange) ∧ (s.stFault = 5#3 ↔ s.faultCode = .emptyInput) ∧
    (s.stFault = 6#3 ↔ s.faultCode = .invariantViolation) ∧ s.stFault ≠ 7#3 ∧
    (legalBpp s.bpp = true → s.minCodeSize.toNat = max 2 s.bpp.toNat)

/-! Faults -/

/-- R136: a command that faults writes `fault_code` and `phase` and nothing else. -/
def Obligations.FaultEntryIsPrecise : Prop :=
  (∀ (i : Instr) (s t : State), exec i s = .next t → t.phase = .fault →
    t.faultCode ≠ .noFault ∧ t = { s with phase := .fault, faultCode := t.faultCode }) ∧
  (∀ (w : CmdWord) (s t : State), acceptWord w s = .next t → t.phase = .fault →
    t.faultCode ≠ .noFault ∧ t = { s with phase := .fault, faultCode := t.faultCode })

/-- R133: decode before phase before operand; the first condition that holds is the fault taken. -/
def Obligations.FaultPriority : Prop :=
  ∀ s : State, s.phase ≠ .fault →
    (∀ w e, decode w = .error e → acceptWord w s = .next { s with phase := .fault, faultCode := .illegalCommand }) ∧
    (∀ arg, exec (.reserved arg) s = .next { s with phase := .fault, faultCode := .illegalCommand }) ∧
    (∀ arg, startBitsClear arg = false →
      exec (.start arg) s = .next { s with phase := .fault, faultCode := .illegalCommand }) ∧
    (∀ arg, startBitsClear arg = true → s.phase = .run →
      exec (.start arg) s = .next { s with phase := .fault, faultCode := .protocol }) ∧
    (∀ arg, startBitsClear arg = true → s.phase ≠ .run → legalBpp (bppField arg) = false →
      exec (.start arg) s = .next { s with phase := .fault, faultCode := .illegalConfig }) ∧
    (∀ c, s.phase ≠ .run → exec (.sym c) s = .next { s with phase := .fault, faultCode := .protocol }) ∧
    (∀ c, s.phase = .run → 2 ^ s.bpp.toNat ≤ c.toNat →
      exec (.sym c) s = .next { s with phase := .fault, faultCode := .symbolRange }) ∧
    (∀ arg, arg ≠ 0#8 →
      exec (.endFrame arg) s = .next { s with phase := .fault, faultCode := .illegalCommand }) ∧
    (s.phase ≠ .run → exec (.endFrame 0#8) s = .next { s with phase := .fault, faultCode := .protocol }) ∧
    (s.phase = .run → s.entValid = false →
      exec (.endFrame 0#8) s = .next { s with phase := .fault, faultCode := .emptyInput })

/-- R130, R131: each fault code is raised only for its cause, and code 6 never. -/
def Obligations.FaultCodesHaveTheirCause : Prop :=
  ∀ (i : Instr) (s t : State), exec i s = .next t → t.phase = .fault →
    (t.faultCode = .illegalCommand → i.wellFormed = false ∨ ∃ a, i = .reserved a) ∧
    (t.faultCode = .illegalConfig → ∃ a, i = .start a ∧ legalBpp (bppField a) = false) ∧
    (t.faultCode = .protocol →
      (∃ a, i = .start a ∧ s.phase = .run) ∨
        ((∃ c, i = .sym c) ∨ ∃ a, i = .endFrame a) ∧ (s.phase = .idle ∨ s.phase = .done)) ∧
    (t.faultCode = .symbolRange → ∃ c, i = .sym c ∧ 2 ^ s.bpp.toNat ≤ c.toNat) ∧
    (t.faultCode = .emptyInput → ∃ a, i = .endFrame a ∧ s.entValid = false) ∧ t.faultCode ≠ .invariantViolation

/-- R62 (a): a reserved word raises IllegalCommand in every phase that accepts words, whatever its other bits. -/
def Obligations.ReservedRaisesIllegalCommand : Prop :=
  ∀ (s : State) (arg : BitVec 8), s.phase ≠ .fault →
    exec (.reserved arg) s = .next { s with phase := .fault, faultCode := .illegalCommand }

/-- R83: the phase transitions of a command. -/
def Obligations.PhaseTransitions : Prop :=
  ∀ (i : Instr) (s t : State), exec i s = .next t →
    s.phase ≠ .fault ∧
      (t.phase = .fault ∨ (∃ a, i = .start a) ∧ (s.phase = .idle ∨ s.phase = .done) ∧ t.phase = .run ∨
        (∃ c, i = .sym c) ∧ s.phase = .run ∧ t.phase = .run ∨
        (∃ a, i = .endFrame a) ∧ s.phase = .run ∧ s.entValid = true ∧ t.phase = .done)

/-! START -/

/-- R80, R25 (last column): START outside a frame with a legal `bpp` completes: every register, every valid bit, what
it leaves unchanged. -/
def Obligations.StartBeginsFrame : Prop :=
  ∀ (s : State) (arg : BitVec 8), s.phase = .idle ∨ s.phase = .done → startBitsClear arg = true →
    legalBpp (bppField arg) = true →
    ∃ t tbl, exec (.start arg) s = .next t ∧ t.phase = .run ∧ t.faultCode = s.faultCode ∧ t.bpp = bppField arg ∧
      t.ent = 0#12 ∧ t.entValid = false ∧ t.nBits.toNat = ics (bppField arg) + 1 ∧
      t.freeEnt.toNat = firstCode (bppField arg) ∧ t.clearFlag = false ∧
      t.acc.toNat = (if bppField arg = 8#4 then 1 else clearCode (bppField arg)) ∧
      t.curBits.toNat = (if bppField arg = 8#4 then 1 else ics (bppField arg) + 1) ∧
      t.bufCnt.toNat = (if bppField arg = 8#4 then 1 else 0) ∧
      (∀ j, Memory.read t.buf j = if bppField arg = 8#4 ∧ j = 0 then some 0x00#8 else Memory.read s.buf j) ∧
      t.ht = some tbl ∧ liveEntries tbl = [] ∧
      (∀ i, Memory.read tbl i = (Memory.read (s.ht.getD []) i).map fun e => { e with valid := false }) ∧
      t.out = s.out ∧ t.inputs = s.inputs ∧ t.freeCount = s.freeCount

/-- R85: after START of the same `bpp` any two states agree in every datapath register and in `phase`, in the held
bytes, in every `valid` bit (each is 0) and in what every Probe answers; `fault_code` is as it was before. The stale
keys, codes and bytes, which no rule reads (R27), may differ. -/
def Obligations.StartForgetsThePast : Prop :=
  ∀ (s₁ s₂ : State) (arg : BitVec 8), s₁.phase = .idle ∨ s₁.phase = .done → s₂.phase = .idle ∨ s₂.phase = .done →
    startBitsClear arg = true → legalBpp (bppField arg) = true →
    ∃ t₁ t₂, exec (.start arg) s₁ = .next t₁ ∧ exec (.start arg) s₂ = .next t₂ ∧ t₁.phase = t₂.phase ∧
      t₁.bpp = t₂.bpp ∧ t₁.ent = t₂.ent ∧ t₁.entValid = t₂.entValid ∧ t₁.nBits = t₂.nBits ∧ t₁.freeEnt = t₂.freeEnt ∧
      t₁.clearFlag = t₂.clearFlag ∧ t₁.acc = t₂.acc ∧ t₁.curBits = t₂.curBits ∧ t₁.bufCnt = t₂.bufCnt ∧
      t₁.faultCode = s₁.faultCode ∧ t₂.faultCode = s₂.faultCode ∧ heldBytes t₁ = heldBytes t₂ ∧
      (∃ tbl₁ tbl₂, t₁.ht = some tbl₁ ∧ t₂.ht = some tbl₂ ∧ liveEntries tbl₁ = [] ∧ liveEntries tbl₂ = []) ∧
      ∀ e c, probe e c t₁ = probe e c t₂

/-! SYM -/

/-- R81: the first symbol of a frame becomes the prefix; nothing else changes. -/
def Obligations.FirstSymbolBecomesPrefix : Prop :=
  ∀ (s : State) (c : BitVec 8), s.phase = .run → c.toNat < 2 ^ s.bpp.toNat → s.entValid = false →
    exec (.sym c) s = .next { s with ent := c.setWidth 12, entValid := true }

/-- R81: on a hit the prefix becomes the code of the longer string; nothing else changes. -/
def Obligations.SymbolHitExtendsPrefix : Prop :=
  ∀ (s : State) (c : BitVec 8) (tbl : List (Nat × HtEntry)) (i : Nat), s.phase = .run → c.toNat < 2 ^ s.bpp.toNat →
    s.entValid = true → s.ht = some tbl → probeTable tbl s.ent c = .ok (true, i) →
    ∃ e, Memory.read tbl i = some e ∧ e.valid = true ∧ e.key = keyOf s.ent c ∧
      exec (.sym c) s = .next { s with ent := e.code }

/-- R81: on a miss with room the prefix is emitted, the pair enters the slot where Probe ended under `free_ent`, which
is incremented, and the symbol is the new prefix. -/
def Obligations.SymbolMissEntersString : Prop :=
  ∀ (s : State) (c : BitVec 8) (tbl : List (Nat × HtEntry)) (i : Nat), s.phase = .run → c.toNat < 2 ^ s.bpp.toNat →
    s.entValid = true → EmitReady s → s.ht = some tbl → probeTable tbl s.ent c = .ok (false, i) →
    s.freeEnt.toNat < 4096 →
    ∃ u t, emitCode s.ent s = .ok u ∧ exec (.sym c) s = .next t ∧
      t = { u with
        ht := some (Memory.write tbl i { valid := true, key := keyOf s.ent c, code := s.freeEnt.setWidth 12 })
        freeEnt := s.freeEnt + 1#13
        ent := c.setWidth 12 } ∧
      t.freeEnt.toNat = s.freeEnt.toNat + 1 ∧ t.nBits.toNat = widen s.freeEnt.toNat s.nBits.toNat ∧
      streamOf t = (bytesOf (emitValue s s.ent.toNat) (emitBits s / 8)).foldl pushByte (streamOf s)

/-- R81 corner case 4: on a miss with a full table the prefix and `CLEAR` are emitted at the widths in force, the
table is emptied, the width returns to `ICS + 1`, the pair is not entered, and the symbol is the new prefix. -/
def Obligations.SymbolMissClearsFullTable : Prop :=
  ∀ (s : State) (c : BitVec 8) (tbl : List (Nat × HtEntry)) (i : Nat), s.phase = .run → c.toNat < 2 ^ s.bpp.toNat →
    s.entValid = true → EmitReady s → s.ht = some tbl → probeTable tbl s.ent c = .ok (false, i) →
    s.freeEnt.toNat = 4096 →
    ∃ t, exec (.sym c) s = .next t ∧ t.ent = c.setWidth 12 ∧ t.freeEnt.toNat = firstCode s.bpp ∧
      t.nBits.toNat = ics s.bpp + 1 ∧ t.clearFlag = false ∧ t.ht = some (tbl.map invalidate) ∧
      liveEntries (tbl.map invalidate) = [] ∧
      streamOf t =
        (bytesOf (emitValue s s.ent.toNat + clearCode s.bpp * 2 ^ emitBits s)
          ((emitBits s + nextWidth s) / 8)).foldl pushByte (streamOf s) ∧
      t.acc.toNat =
        (emitValue s s.ent.toNat + clearCode s.bpp * 2 ^ emitBits s) / 256 ^ ((emitBits s + nextWidth s) / 8) ∧
      t.curBits.toNat = (emitBits s + nextWidth s) % 8

/-- R81, R136: what a completed SYM leaves unchanged: every register but those the rule writes, every byte of `BUF` it
does not store to, and every slot of `HT` but the one it enters (a full table's clear apart, which writes `valid` bits
only). -/ def Obligations.SymbolFrame : Prop := ∀ (s t : State) (c : BitVec 8), (s.entValid = true → EmitReady s) →
exec (.sym c) s = .next t → t.phase ≠ .fault → t.phase = s.phase ∧ t.faultCode = s.faultCode ∧ t.bpp = s.bpp ∧
t.entValid = true ∧ t.clearFlag = s.clearFlag ∧ t.inputs = s.inputs ∧ t.freeCount = s.freeCount ∧ (symbolBytes c s = 0
→ t.out = s.out ∧ t.bufCnt = s.bufCnt) ∧ (∀ j, (∀ k < symbolBytes c s, j ≠ (s.bufCnt.toNat + k) % 255) → Memory.read
t.buf j = Memory.read s.buf j) ∧ (∀ j b i, s.entValid = true → probe s.ent c s = .ok (b, i) → (b = true ∨
s.freeEnt.toNat < 4096 ∧ j ≠ i) → Memory.read (t.ht.getD []) j = Memory.read (s.ht.getD []) j) ∧ (s.entValid = false →
t = { s with ent := t.ent, entValid := true }) /-- R81, an inference the spec draws from R116 and R120: a SYM appends nothing to `OUT`, or one whole sub-block of 255
payload bytes. -/
def Obligations.SymbolOutputsNothingOrBlock : Prop :=
  ∀ (s t : State) (c : BitVec 8), (s.entValid = true → EmitReady s) → exec (.sym c) s = .next t →
    t.out = s.out ∨ ∃ payload, payload.length = 255 ∧ t.out = s.out ++ 0xFF#8 :: payload

/-! END -/

/-- R82: END after at least one symbol completes: what is output, what it writes and what it leaves unchanged. -/
def Obligations.EndFinishesFrame : Prop :=
  ∀ s : State, s.phase = .run → s.entValid = true → EmitReady s →
    ∃ t, exec (.endFrame 0#8) s = .next t ∧ t.phase = .done ∧ t.entValid = false ∧ t.acc = 0#32 ∧ t.curBits = 0#5 ∧
      t.bufCnt = 0#8 ∧ t.nBits.toNat = widen s.freeEnt.toNat (nextWidth s) ∧
      t.out = closeStream ((bytesOf (endValue s) (endBytes s)).foldl pushByte (streamOf s)) ∧
      t.faultCode = s.faultCode ∧ t.bpp = s.bpp ∧ t.ent = s.ent ∧ t.freeEnt = s.freeEnt ∧ t.clearFlag = false ∧
      t.ht = s.ht ∧ t.inputs = s.inputs ∧ t.freeCount = s.freeCount ∧
      ∀ j, (∀ k < endBytes s, j ≠ (s.bufCnt.toNat + k) % 255) → Memory.read t.buf j = Memory.read s.buf j

/-- R82, an inference the spec draws from R116 and R120 to R122: END appends at least 3 and at most 261 bytes, the
last of them the terminator. -/
def Obligations.EndOutputBounds : Prop :=
  ∀ s t : State, EmitReady s → exec (.endFrame 0#8) s = .next t → t.phase = .done →
    ∃ bytes, t.out = s.out ++ bytes ++ [0x00#8] ∧ 3 ≤ bytes.length + 1 ∧ bytes.length + 1 ≤ 261

/-! Code emission and framing -/

/-- R120: the byte goes to `BUF[buf_cnt]` and `buf_cnt` counts it; the 255th byte flushes the buffer at once. -/
def Obligations.ByteOutStoresAndFlushes : Prop :=
  ∀ (s : State) (b : Byte), BufInv s →
    ∃ t, byteOut b s = .ok t ∧
      (∀ j, Memory.read t.buf j = if j = s.bufCnt.toNat then some b else Memory.read s.buf j) ∧
      (s.bufCnt.toNat < 254 → t.bufCnt.toNat = s.bufCnt.toNat + 1 ∧ t.out = s.out) ∧
      (s.bufCnt.toNat = 254 → t.bufCnt = 0#8 ∧ t.out = s.out ++ 0xFF#8 :: (heldBytes s ++ [b])) ∧
      t = { s with buf := t.buf, bufCnt := t.bufCnt, out := t.out }

/-- R121: the length byte, then the held bytes in the order they were stored; nothing when there are none. -/
def Obligations.FlushBlockOutputsHeldBytes : Prop :=
  ∀ s : State, s.bufCnt.toNat ≤ 255 → (∀ j < s.bufCnt.toNat, (Memory.read s.buf j).isSome) →
    ∃ bytes, bytes.length = s.bufCnt.toNat ∧ (∀ j < s.bufCnt.toNat, bytes[j]? = Memory.read s.buf j) ∧
      flushBlock s =
        .ok { s with bufCnt := 0#8, out := s.out ++ if s.bufCnt = 0#8 then [] else s.bufCnt :: bytes }

/-- R112: back to `ICS + 1` after a table-full clear, else one more when `free_ent` does not fit, never above 12. -/
def Obligations.WidthUpdateGrowsByOne : Prop :=
  ∀ s : State,
    (s.clearFlag = true → legalBpp s.bpp = true → (widthUpdate s).nBits.toNat = max 2 s.bpp.toNat + 1) ∧
    (s.clearFlag = false → 2 ^ s.nBits.toNat - 1 < s.freeEnt.toNat → s.nBits.toNat < 12 →
      (widthUpdate s).nBits.toNat = s.nBits.toNat + 1) ∧
    (s.clearFlag = false → s.freeEnt.toNat ≤ 2 ^ s.nBits.toNat - 1 ∨ 12 ≤ s.nBits.toNat → widthUpdate s = s) ∧
    widthUpdate s = { s with nBits := (widthUpdate s).nBits, clearFlag := false }

/-- R110, R116: the code goes above the waiting bits, the whole bytes leave least significant first, the rest waits,
and the width is updated last. -/
def Obligations.EmitCodePacksBits : Prop :=
  ∀ (s : State) (code : BitVec 12), StreamInv s → s.nBits.toNat ≤ 12 → code.toNat < 2 ^ s.nBits.toNat →
    ∃ t, emitCode code s = .ok t ∧
      streamOf t =
        (bytesOf (s.acc.toNat + code.toNat * 2 ^ s.curBits.toNat)
          ((s.curBits.toNat + s.nBits.toNat) / 8)).foldl pushByte (streamOf s) ∧
      t.acc.toNat =
        (s.acc.toNat + code.toNat * 2 ^ s.curBits.toNat) / 256 ^ ((s.curBits.toNat + s.nBits.toNat) / 8) ∧
      t.curBits.toNat = (s.curBits.toNat + s.nBits.toNat) % 8 ∧ StreamInv t ∧
      t.nBits = (widthUpdate s).nBits ∧
      (∀ j, (∀ k < (s.curBits.toNat + s.nBits.toNat) / 8, j ≠ (s.bufCnt.toNat + k) % 255) →
        Memory.read t.buf j = Memory.read s.buf j) ∧
      t = { s with
        acc := t.acc, curBits := t.curBits, buf := t.buf, bufCnt := t.bufCnt, out := t.out, nBits := t.nBits,
        clearFlag := false }

/-- R113: the waiting bits leave as one byte whose unused high bits are 0; with none waiting, nothing is written. -/
def Obligations.FlushAccPadsWithZeros : Prop :=
  ∀ s : State, StreamInv s →
    (s.curBits = 0#5 → flushAcc s = .ok s) ∧
    (s.curBits ≠ 0#5 →
      ∃ u b, byteOut b s = .ok u ∧ b.toNat = s.acc.toNat ∧ b.toNat < 2 ^ s.curBits.toNat ∧
        flushAcc s = .ok { u with acc := 0#32, curBits := 0#5 })

/-! The string table -/

/-- R100, R101 (the packing and the shift supplied by the spec from general knowledge, log 18): the key as a number,
its two fields, and the first slot. -/
def Obligations.KeyAndHash : Prop :=
  ∀ (e : BitVec 12) (c : BitVec 8),
    (keyOf e c).toNat = c.toNat * 4096 + e.toNat ∧ keyPrefix (keyOf e c) = e ∧ keySymbol (keyOf e c) = c ∧
    hashOf e c = (c.toNat * 16) ^^^ e.toNat ∧ hashOf e c < 4096

/-- R102 corner case 2 (the direction supplied by the spec from general knowledge, log 18): the `n`-th slot read is `i
* (n + 1)` modulo 5003, and the search from slot 0 goes down from 5002. -/
def Obligations.ProbeSlotSequence : Prop :=
  (∀ i n, 0 < i → i < 5003 → (nextSlot (displacement i))^[n] i = i * (n + 1) % 5003) ∧
    (∀ n, 0 < n → n < 5003 → (nextSlot (displacement 0))^[n] 0 = 5003 - n)

/-- R106, an inference the spec draws from R102 to R104 and R81: with at most 4090 valid entries every Probe ends,
after at most one slot more than there are valid entries. -/
def Obligations.ProbeTerminates : Prop :=
  ∀ (tbl : List (Nat × HtEntry)) (e : BitVec 12) (c : BitVec 8), (liveEntries tbl).length ≤ 4090 →
    ∃ hit i n, probeTable tbl e c = .ok (hit, i) ∧ n ≤ (liveEntries tbl).length ∧ i < 5003 ∧
      i = (nextSlot (displacement (hashOf e c)))^[n] (hashOf e c)

/-- R105 (a), an inference the spec draws from R100 to R104: in a table of the invariant Probe hits exactly on the
pairs of the abstract map, and finds their code. -/
def Obligations.ProbeReadsTheMap : Prop :=
  ∀ (bpp : BitVec 4) (free : Nat) (tbl : List (Nat × HtEntry)) (e : BitVec 12) (c : BitVec 8),
    legalBpp bpp = true → free ≤ 4096 → TableInv bpp free tbl →
    (∀ code, tableMaps tbl e c code →
      ∃ i en, probeTable tbl e c = .ok (true, i) ∧ Memory.read tbl i = some en ∧ en.code = code) ∧
    ((∀ code, ¬ tableMaps tbl e c code) →
      ∃ i, probeTable tbl e c = .ok (false, i) ∧ ∀ en, Memory.read tbl i = some en → en.valid = false)

/-- R103, and R105 (b), which the spec infers from it: Insert where Probe missed adds exactly the one pair to the map,
and writes no other slot. -/
def Obligations.InsertAddsOnePair : Prop :=
  ∀ (tbl : List (Nat × HtEntry)) (e : BitVec 12) (c : BitVec 8) (v : BitVec 12) (s : State) (i : Nat),
    s.ht = some tbl → probeTable tbl e c = .ok (false, i) →
    ∃ tbl', insertEntry i e c v s = { s with ht := some tbl' } ∧
      (∀ j, Memory.read tbl' j =
        if j = i then some { valid := true, key := keyOf e c, code := v } else Memory.read tbl j) ∧
      ∀ e' c' v', tableMaps tbl' e' c' v' ↔ (e' = e ∧ c' = c ∧ v' = v) ∨ tableMaps tbl e' c' v'

/-- R104: ClearTable clears every valid bit, keeps every key and code, and every Probe then misses at its first slot.
-/ def Obligations.ClearTableEmptiesMap : Prop := ∀ s : State, ∃ tbl, clearTable s = { s with ht := some tbl } ∧ (∀ i,
Memory.read tbl i = (Memory.read (s.ht.getD []) i).map fun e => { e with valid := false }) ∧ (∀ e c v, ¬ tableMaps tbl
e c v) ∧ ∀ e c, probeTable tbl e c = .ok (false, hashOf e c) /-! Invariants -/

/-- R25: the state after reset meets the invariant. -/
def Obligations.ResetMeetsInvariant : Prop := BlockInv State.reset

/-- R24, which the spec infers from all the commands' rules: every step keeps the invariant. -/
def Obligations.StepKeepsInvariant : Prop := ∀ s t : State, BlockInv s → step s = .next t → BlockInv t

/-- From a state of the invariant the machine stops nowhere but in FAULT without RESET: no value is read that was
never written (R26), no index leaves its array (R42), every Probe ends (R106). That a step with nothing presented has
a next state is the model's choice of log 3, and that in FAULT a RESET listed behind waiting words is taken is that of
log 4. -/
def Obligations.SafeStateAlwaysSteps : Prop :=
  ∀ s : State, BlockInv s →
    (s.phase ≠ .fault → ∃ t, step s = .next t) ∧
    (s.phase = .fault → ∀ r, step s = .fault r → r = .faultPhase ∧ ∀ x ∈ s.inputs, assertsReset x = false)

/-- R24 item 5, an inference of the spec: the prefix of a safe state is a legal code and fits the width in force, and
SYM and END may emit it. -/
def Obligations.PrefixFitsCurrentWidth : Prop :=
  ∀ s : State, BlockInv s → s.phase = .run → s.entValid = true →
    EmitReady s ∧ s.ent.toNat < 2 ^ s.nBits.toNat ∧ legalPrefix s.bpp s.freeEnt.toNat s.ent.toNat

/-- R85, R80: what a whole frame adds to `OUT` depends on the frame alone: run from any two safe states outside a
frame, it adds the same bytes. -/
def Obligations.FrameOutputForgetsThePast : Prop :=
  ∀ (s₁ s₂ : State) (b : BitVec 4) (c : BitVec 8) (cs : List (BitVec 8)), BlockInv s₁ → BlockInv s₂ →
    s₁.phase = .idle ∨ s₁.phase = .done → s₂.phase = .idle ∨ s₂.phase = .done → LegalFrame b (c :: cs) →
    s₁.inputs = frameInputs b (c :: cs) → s₂.inputs = frameInputs b (c :: cs) →
    ∃ t₁ t₂ bytes, Reaches (cs.length + 3) s₁ t₁ ∧ Reaches (cs.length + 3) s₂ t₂ ∧ Final t₁ ∧ Final t₂ ∧
      t₁.out = s₁.out ++ bytes ∧ t₂.out = s₂.out ++ bytes

/-- R21: `OUT` only grows, in every step from every state. -/
def Obligations.OutputOnlyGrows : Prop := ∀ s t : State, step s = .next t → s.out <+: t.out

/-! Whole frames -/

/-- R84, which the spec infers from R80 to R82 and R105, with R43 and R67: a legal frame run from any safe state
outside a frame completes, and adds to `OUT` exactly the framed, packed codes of the abstract algorithm, which know
nothing of the hash table. -/
def Obligations.FrameOutputIsAbstractFrame : Prop :=
  ∀ (s : State) (b : BitVec 4) (c : BitVec 8) (cs : List (BitVec 8)) (rest : List Input), BlockInv s →
    s.phase = .idle ∨ s.phase = .done → LegalFrame b (c :: cs) → s.inputs = frameInputs b (c :: cs) ++ rest →
    ∃ t, Reaches (cs.length + 3) s t ∧ t.phase = .done ∧ t.inputs = rest ∧
      t.out = s.out ++ frameBytes (payloadOf (frameCodes b c cs))

/-- R115, an inference the spec checks mechanically, for the decoder it supplies from general knowledge (log 18): the
standard decoder reads the payload of every legal frame back to its symbols, with fewer than 8 bits left. -/
def Obligations.StandardDecoderRecoversSymbols : Prop :=
  ∀ (b : BitVec 4) (c : BitVec 8) (cs : List (BitVec 8)), LegalFrame b (c :: cs) →
    ∃ left, standardDecode (ics b) (payloadOf (frameCodes b c cs)) = some ((c :: cs).map BitVec.toNat, left) ∧ left < 8

/-- R67, and R123, which the spec infers from R120 to R122: the framing gives the payload back, with what follows the
terminator, and its length is as the rule says. -/
def Obligations.UnframeRecoversPayload : Prop :=
  ∀ (payload rest : List Byte) (n : Nat), payload.length < n →
    unframe n (frameBytes payload ++ rest) = some (payload, rest) ∧
      (frameBytes payload).length = payload.length + (payload.length + 254) / 255 + 1

/-- R65, an inference the spec draws from R110 and R112: the closed form of the width of the `j`-th data code is what
the width rule gives code after code. -/
def Obligations.DataCodeWidthClosedForm : Prop :=
  ∀ b : BitVec 4, legalBpp b = true →
    dataCodeWidth b 1 = ics b + 1 ∧
      ∀ j, 1 ≤ j → firstCode b + j - 1 ≤ 4096 →
        widen (firstCode b + j - 1) (dataCodeWidth b j) = dataCodeWidth b (j + 1)

/-- R63: every code of a legal frame fits the width it is emitted at, 3 to 12 bits, and is a symbol, `CLEAR`, `EOFC`
or an assigned code. -/
def Obligations.FrameCodesFitTheirWidth : Prop :=
  ∀ (b : BitVec 4) (c : BitVec 8) (cs : List (BitVec 8)), LegalFrame b (c :: cs) →
    ∀ x ∈ frameCodes b c cs,
      x.1 < 2 ^ x.2 ∧ ics b + 1 ≤ x.2 ∧ x.2 ≤ 12 ∧
        (x.1 < 2 ^ b.toNat ∨ x.1 = clearCode b ∨ x.1 = eofCode b ∨ firstCode b ≤ x.1)

/-- R64, with the count the spec infers there from R81, and R66: the codes of a legal frame are groups of data codes,
each led by `CLEAR`, then `EOFC`; a group that a further `CLEAR` follows has `4096 - FIRST + 1` codes; the payload has
at least two bytes. -/
def Obligations.FrameCodesGrammar : Prop :=
  ∀ (b : BitVec 4) (c : BitVec 8) (cs : List (BitVec 8)), LegalFrame b (c :: cs) →
    ∃ groups : List (List Nat), groups ≠ [] ∧
      (∀ g ∈ groups, g ≠ [] ∧ ∀ k ∈ g, k ≠ clearCode b ∧ k ≠ eofCode b) ∧
      (∀ g ∈ groups.dropLast, g.length = 4096 - firstCode b + 1) ∧
      (frameCodes b c cs).map Prod.fst = groups.flatMap (fun g => clearCode b :: g) ++ [eofCode b] ∧
      2 ≤ (payloadOf (frameCodes b c cs)).length

/-- R43, R44: byte `j` of the payload is bits `8j` to `8j + 7` of `S`, there are `ceil(T/8)` of them, and the payload
is the little-endian representation of `S`. -/
def Obligations.PayloadIsLittleEndianStream : Prop :=
  ∀ codes : List Emitted, (∀ x ∈ codes, x.1 < 2 ^ x.2) →
    (payloadOf codes).length = (streamLength codes + 7) / 8 ∧
    (∀ j < (payloadOf codes).length, (payloadOf codes)[j]? = some (BitVec.ofNat 8 (streamValue codes >>> (8 * j)))) ∧
    payloadValue (payloadOf codes) = streamValue codes
end

