-- ==== Sys2Proof/Laws/Memory.lean ====
section
/-! SUPPORT. The laws of sparse memory: read after write, canonical form, ranges. -/

namespace Sys2Proof.Machine.Memory

variable {α : Type}

@[simp] theorem read_nil (a : Nat) : read ([] : List (Nat × α)) a = none := rfl

theorem read_write_same (m : List (Nat × α)) (a : Nat) (v : α) : read (write m a v) a = some v := by
  induction m with
  | nil => simp [write, read]
  | cons x rest ih => obtain ⟨b, u⟩ := x; simp only [write]; split_ifs <;> simp_all [read]

theorem read_write_other (m : List (Nat × α)) {a b : Nat} (v : α) (h : b ≠ a) : read (write m a v) b = read m b := by
  induction m with
  | nil => simp [write, read, h]
  | cons x rest ih => obtain ⟨c, u⟩ := x; simp only [write]; split_ifs <;> simp_all [read]

theorem read_write (m : List (Nat × α)) (a b : Nat) (v : α) :
    read (write m a v) b = if b = a then some v else read m b := by
  split_ifs with h
  · subst h; exact read_write_same m b v
  · exact read_write_other m v h

theorem mem_write {m : List (Nat × α)} {a : Nat} {v : α} {x : Nat × α} (h : x ∈ write m a v) :
    x = (a, v) ∨ x ∈ m := by
  induction m with
  | nil => simpa [write] using h
  | cons y rest ih => obtain ⟨b, u⟩ := y; simp only [write] at h; split_ifs at h <;> simp_all <;> tauto

/-- A write inside the array keeps the canonical form. -/
theorem write_wf {size a : Nat} {m : List (Nat × α)} (v : α) (h : wf size m) (ha : a < size) :
    wf size (write m a v) := by
  obtain ⟨hs, hb⟩ := h
  refine ⟨?_, fun x hx => ?_⟩
  · induction m with
    | nil => simp [write]
    | cons y rest ih =>
      obtain ⟨b, u⟩ := y
      have hs' := List.pairwise_cons.1 hs
      simp only [write]
      split_ifs with h1 h2
      · exact List.pairwise_cons.2 ⟨fun z hz => by
          rcases List.mem_cons.1 hz with rfl | hz
          · exact h1
          · exact h1.trans (hs'.1 z hz), hs⟩
      · subst h2; exact List.pairwise_cons.2 ⟨hs'.1, hs'.2⟩
      · refine List.pairwise_cons.2 ⟨fun z hz => ?_, ih hs'.2 fun z hz => hb z (List.mem_cons_of_mem _ hz)⟩
        rcases mem_write hz with rfl | hz
        · show b < a; omega
        · exact hs'.1 z hz
  · rcases mem_write hx with rfl | hx
    · exact ha
    · exact hb x hx

/-- Changing only the values keeps the canonical form. -/
theorem map_wf {size : Nat} {m : List (Nat × α)} {f : Nat × α → Nat × α} (hf : ∀ x, (f x).1 = x.1) (h : wf size m) :
    wf size (m.map f) := by
  refine ⟨?_, ?_⟩
  · rw [List.pairwise_map]; simpa only [hf] using h.1
  · intro x hx
    obtain ⟨y, hy, rfl⟩ := List.mem_map.1 hx
    rw [hf]; exact h.2 y hy

/-- In canonical form a listed pair is what its index reads as. -/
theorem mem_iff_read {size : Nat} {m : List (Nat × α)} (h : wf size m) (a : Nat) (v : α) :
    (a, v) ∈ m ↔ read m a = some v := by
  replace h := h.1
  induction m with
  | nil => simp
  | cons y rest ih =>
    obtain ⟨b, u⟩ := y
    have hp := List.pairwise_cons.1 h
    simp only [List.mem_cons, Prod.mk.injEq, read]
    split_ifs with hab
    · subst hab
      have : (a, v) ∉ rest := fun hm => Nat.lt_irrefl a (hp.1 (a, v) hm)
      simp only [true_and, this, or_false, Option.some.injEq]
      exact eq_comm
    · simp only [hab, false_and, false_or]; exact ih hp.2

theorem read_isSome_lt {size : Nat} {m : List (Nat × α)} (h : wf size m) {a : Nat} {v : α} (hr : read m a = some v) :
    a < size := h.2 (a, v) ((mem_iff_read h a v).2 hr)

theorem readRange_succ (m : List (Nat × α)) (a n : Nat) :
    readRange m a (n + 1) = (read m a).bind fun v => (readRange m (a + 1) n).map (v :: ·) := by
  simp only [readRange]
  cases read m a <;> cases readRange m (a + 1) n <;> rfl

theorem readRange_length {m : List (Nat × α)} {a n : Nat} {vs : List α} (h : readRange m a n = some vs) :
    vs.length = n := by
  induction n generalizing a vs with
  | zero => cases h; rfl
  | succ n ih =>
    rw [readRange_succ] at h
    simp only [Option.bind_eq_some_iff, Option.map_eq_some_iff] at h
    obtain ⟨v, -, ws, hw, rfl⟩ := h
    simp [ih hw]

/-- A range can be read exactly when each of its indices holds a value. -/
theorem readRange_isSome {m : List (Nat × α)} {a n : Nat} :
    (readRange m a n).isSome ↔ ∀ j, a ≤ j → j < a + n → (read m j).isSome := by
  induction n generalizing a with
  | zero => simp only [readRange, Option.isSome_some, true_iff]; intros; omega
  | succ n ih =>
    rw [readRange_succ]
    constructor
    · intro h j h1 h2
      obtain ⟨w, hw⟩ := Option.isSome_iff_exists.1 h
      simp only [Option.bind_eq_some_iff, Option.map_eq_some_iff] at hw
      obtain ⟨v, hv, ws, hws, -⟩ := hw
      rcases Nat.eq_or_lt_of_le h1 with rfl | h1
      · simp [hv]
      · exact ih.1 (by simp [hws]) j h1 (by omega)
    · intro h
      have h0 := h a le_rfl (by omega)
      have hr := (ih (a := a + 1)).2 fun j h1 h2 => h j (by omega) (by omega)
      obtain ⟨v, hv⟩ := Option.isSome_iff_exists.1 h0
      obtain ⟨ws, hws⟩ := Option.isSome_iff_exists.1 hr
      simp [hv, hws]

theorem readRange_congr {m m' : List (Nat × α)} {a n : Nat} (h : ∀ j, a ≤ j → j < a + n → read m' j = read m j) :
    readRange m' a n = readRange m a n := by
  induction n generalizing a with
  | zero => rfl
  | succ n ih =>
    rw [readRange_succ, readRange_succ, h a le_rfl (by omega), ih fun j h1 h2 => h j (by omega) (by omega)]

theorem readRange_append (m : List (Nat × α)) (a n k : Nat) :
    readRange m a (n + k) = (readRange m a n).bind fun vs => (readRange m (a + n) k).map (vs ++ ·) := by
  induction n generalizing a with
  | zero => simp [readRange]
  | succ n ih =>
    rw [show n + 1 + k = (n + k) + 1 by omega, readRange_succ, readRange_succ, ih,
      show a + 1 + n = a + (n + 1) by omega]
    cases read m a <;> cases readRange m (a + 1) n <;> cases readRange m (a + (n + 1)) k <;> simp

/-- Storing the next byte after a range extends the range by it. -/
theorem readRange_write_end {m : List (Nat × α)} {n : Nat} {vs : List α} (v : α) (h : readRange m 0 n = some vs) :
    readRange (write m n v) 0 (n + 1) = some (vs ++ [v]) := by
  have hc : readRange (write m n v) 0 n = some vs := by
    rw [readRange_congr (m := m), h]
    intro j _ h2; exact read_write_other m v (by omega)
  rw [readRange_append, hc]
  simp [readRange, read_write_same]

end Sys2Proof.Machine.Memory
end

