-- ==== Sys2Proof/Laws/State.lean ====
section
/-! SUPPORT. What each update of the state leaves in each field: one lemma per field per update. -/

namespace Sys2Proof.Machine

/-! `outBytes` -/

@[simp] theorem outBytes_phase (bs : List Byte) (s : State) : (outBytes bs s).phase = s.phase := rfl
@[simp] theorem outBytes_faultCode (bs : List Byte) (s : State) : (outBytes bs s).faultCode = s.faultCode := rfl
@[simp] theorem outBytes_bpp (bs : List Byte) (s : State) : (outBytes bs s).bpp = s.bpp := rfl
@[simp] theorem outBytes_ent (bs : List Byte) (s : State) : (outBytes bs s).ent = s.ent := rfl
@[simp] theorem outBytes_entValid (bs : List Byte) (s : State) : (outBytes bs s).entValid = s.entValid := rfl
@[simp] theorem outBytes_nBits (bs : List Byte) (s : State) : (outBytes bs s).nBits = s.nBits := rfl
@[simp] theorem outBytes_freeEnt (bs : List Byte) (s : State) : (outBytes bs s).freeEnt = s.freeEnt := rfl
@[simp] theorem outBytes_clearFlag (bs : List Byte) (s : State) : (outBytes bs s).clearFlag = s.clearFlag := rfl
@[simp] theorem outBytes_acc (bs : List Byte) (s : State) : (outBytes bs s).acc = s.acc := rfl
@[simp] theorem outBytes_curBits (bs : List Byte) (s : State) : (outBytes bs s).curBits = s.curBits := rfl
@[simp] theorem outBytes_bufCnt (bs : List Byte) (s : State) : (outBytes bs s).bufCnt = s.bufCnt := rfl
@[simp] theorem outBytes_ht (bs : List Byte) (s : State) : (outBytes bs s).ht = s.ht := rfl
@[simp] theorem outBytes_buf (bs : List Byte) (s : State) : (outBytes bs s).buf = s.buf := rfl
@[simp] theorem outBytes_inputs (bs : List Byte) (s : State) : (outBytes bs s).inputs = s.inputs := rfl
@[simp] theorem outBytes_out (bs : List Byte) (s : State) : (outBytes bs s).out = s.out ++ bs := rfl
@[simp] theorem outBytes_freeCount (bs : List Byte) (s : State) : (outBytes bs s).freeCount = s.freeCount := rfl

/-! `takeFault` -/

@[simp] theorem takeFault_phase (code : FaultCode) (s : State) : (takeFault code s).phase = .fault := rfl
@[simp] theorem takeFault_faultCode (code : FaultCode) (s : State) : (takeFault code s).faultCode = code := rfl
@[simp] theorem takeFault_bpp (code : FaultCode) (s : State) : (takeFault code s).bpp = s.bpp := rfl
@[simp] theorem takeFault_ent (code : FaultCode) (s : State) : (takeFault code s).ent = s.ent := rfl
@[simp] theorem takeFault_entValid (code : FaultCode) (s : State) : (takeFault code s).entValid = s.entValid := rfl
@[simp] theorem takeFault_nBits (code : FaultCode) (s : State) : (takeFault code s).nBits = s.nBits := rfl
@[simp] theorem takeFault_freeEnt (code : FaultCode) (s : State) : (takeFault code s).freeEnt = s.freeEnt := rfl
@[simp] theorem takeFault_clearFlag (code : FaultCode) (s : State) : (takeFault code s).clearFlag = s.clearFlag := rfl
@[simp] theorem takeFault_acc (code : FaultCode) (s : State) : (takeFault code s).acc = s.acc := rfl
@[simp] theorem takeFault_curBits (code : FaultCode) (s : State) : (takeFault code s).curBits = s.curBits := rfl
@[simp] theorem takeFault_bufCnt (code : FaultCode) (s : State) : (takeFault code s).bufCnt = s.bufCnt := rfl
@[simp] theorem takeFault_ht (code : FaultCode) (s : State) : (takeFault code s).ht = s.ht := rfl
@[simp] theorem takeFault_buf (code : FaultCode) (s : State) : (takeFault code s).buf = s.buf := rfl
@[simp] theorem takeFault_inputs (code : FaultCode) (s : State) : (takeFault code s).inputs = s.inputs := rfl
@[simp] theorem takeFault_out (code : FaultCode) (s : State) : (takeFault code s).out = s.out := rfl
@[simp] theorem takeFault_freeCount (code : FaultCode) (s : State) : (takeFault code s).freeCount = s.freeCount := rfl

/-! `takeReset` -/

@[simp] theorem takeReset_phase (s : State) : (takeReset s).phase = .idle := rfl
@[simp] theorem takeReset_faultCode (s : State) : (takeReset s).faultCode = .noFault := rfl
@[simp] theorem takeReset_bpp (s : State) : (takeReset s).bpp = Config.unwrittenBpp s.freeCount := rfl
@[simp] theorem takeReset_ent (s : State) : (takeReset s).ent = Config.unwrittenEnt s.freeCount := rfl
@[simp] theorem takeReset_entValid (s : State) : (takeReset s).entValid = false := rfl
@[simp] theorem takeReset_nBits (s : State) : (takeReset s).nBits = Config.unwrittenNBits s.freeCount := rfl
@[simp] theorem takeReset_freeEnt (s : State) : (takeReset s).freeEnt = Config.unwrittenFreeEnt s.freeCount := rfl
@[simp] theorem takeReset_clearFlag (s : State) : (takeReset s).clearFlag = false := rfl
@[simp] theorem takeReset_acc (s : State) : (takeReset s).acc = Config.unwrittenAcc s.freeCount := rfl
@[simp] theorem takeReset_curBits (s : State) : (takeReset s).curBits = Config.unwrittenCurBits s.freeCount := rfl
@[simp] theorem takeReset_bufCnt (s : State) : (takeReset s).bufCnt = Config.unwrittenBufCnt s.freeCount := rfl
@[simp] theorem takeReset_ht (s : State) : (takeReset s).ht = none := rfl
@[simp] theorem takeReset_buf (s : State) : (takeReset s).buf = [] := rfl
@[simp] theorem takeReset_inputs (s : State) : (takeReset s).inputs = s.inputs := rfl
@[simp] theorem takeReset_out (s : State) : (takeReset s).out = s.out := rfl
@[simp] theorem takeReset_freeCount (s : State) : (takeReset s).freeCount = s.freeCount + 1 := rfl

/-! `takePrefix` -/

@[simp] theorem takePrefix_phase (c : BitVec 8) (s : State) : (takePrefix c s).phase = s.phase := rfl
@[simp] theorem takePrefix_faultCode (c : BitVec 8) (s : State) : (takePrefix c s).faultCode = s.faultCode := rfl
@[simp] theorem takePrefix_bpp (c : BitVec 8) (s : State) : (takePrefix c s).bpp = s.bpp := rfl
@[simp] theorem takePrefix_ent (c : BitVec 8) (s : State) : (takePrefix c s).ent = c.setWidth 12 := rfl
@[simp] theorem takePrefix_entValid (c : BitVec 8) (s : State) : (takePrefix c s).entValid = true := rfl
@[simp] theorem takePrefix_nBits (c : BitVec 8) (s : State) : (takePrefix c s).nBits = s.nBits := rfl
@[simp] theorem takePrefix_freeEnt (c : BitVec 8) (s : State) : (takePrefix c s).freeEnt = s.freeEnt := rfl
@[simp] theorem takePrefix_clearFlag (c : BitVec 8) (s : State) : (takePrefix c s).clearFlag = s.clearFlag := rfl
@[simp] theorem takePrefix_acc (c : BitVec 8) (s : State) : (takePrefix c s).acc = s.acc := rfl
@[simp] theorem takePrefix_curBits (c : BitVec 8) (s : State) : (takePrefix c s).curBits = s.curBits := rfl
@[simp] theorem takePrefix_bufCnt (c : BitVec 8) (s : State) : (takePrefix c s).bufCnt = s.bufCnt := rfl
@[simp] theorem takePrefix_ht (c : BitVec 8) (s : State) : (takePrefix c s).ht = s.ht := rfl
@[simp] theorem takePrefix_buf (c : BitVec 8) (s : State) : (takePrefix c s).buf = s.buf := rfl
@[simp] theorem takePrefix_inputs (c : BitVec 8) (s : State) : (takePrefix c s).inputs = s.inputs := rfl
@[simp] theorem takePrefix_out (c : BitVec 8) (s : State) : (takePrefix c s).out = s.out := rfl
@[simp] theorem takePrefix_freeCount (c : BitVec 8) (s : State) : (takePrefix c s).freeCount = s.freeCount := rfl

/-! `restartPrefix` -/

@[simp] theorem restartPrefix_phase (c : BitVec 8) (s : State) : (restartPrefix c s).phase = s.phase := rfl
@[simp] theorem restartPrefix_faultCode (c : BitVec 8) (s : State) : (restartPrefix c s).faultCode = s.faultCode := rfl
@[simp] theorem restartPrefix_bpp (c : BitVec 8) (s : State) : (restartPrefix c s).bpp = s.bpp := rfl
@[simp] theorem restartPrefix_ent (c : BitVec 8) (s : State) : (restartPrefix c s).ent = c.setWidth 12 := rfl
@[simp] theorem restartPrefix_entValid (c : BitVec 8) (s : State) : (restartPrefix c s).entValid = s.entValid := rfl
@[simp] theorem restartPrefix_nBits (c : BitVec 8) (s : State) : (restartPrefix c s).nBits = s.nBits := rfl
@[simp] theorem restartPrefix_freeEnt (c : BitVec 8) (s : State) : (restartPrefix c s).freeEnt = s.freeEnt := rfl
@[simp] theorem restartPrefix_clearFlag (c : BitVec 8) (s : State) : (restartPrefix c s).clearFlag = s.clearFlag := rfl
@[simp] theorem restartPrefix_acc (c : BitVec 8) (s : State) : (restartPrefix c s).acc = s.acc := rfl
@[simp] theorem restartPrefix_curBits (c : BitVec 8) (s : State) : (restartPrefix c s).curBits = s.curBits := rfl
@[simp] theorem restartPrefix_bufCnt (c : BitVec 8) (s : State) : (restartPrefix c s).bufCnt = s.bufCnt := rfl
@[simp] theorem restartPrefix_ht (c : BitVec 8) (s : State) : (restartPrefix c s).ht = s.ht := rfl
@[simp] theorem restartPrefix_buf (c : BitVec 8) (s : State) : (restartPrefix c s).buf = s.buf := rfl
@[simp] theorem restartPrefix_inputs (c : BitVec 8) (s : State) : (restartPrefix c s).inputs = s.inputs := rfl
@[simp] theorem restartPrefix_out (c : BitVec 8) (s : State) : (restartPrefix c s).out = s.out := rfl
@[simp] theorem restartPrefix_freeCount (c : BitVec 8) (s : State) : (restartPrefix c s).freeCount = s.freeCount := rfl

/-! `markClear` -/

@[simp] theorem markClear_phase (s : State) : (markClear s).phase = s.phase := rfl
@[simp] theorem markClear_faultCode (s : State) : (markClear s).faultCode = s.faultCode := rfl
@[simp] theorem markClear_bpp (s : State) : (markClear s).bpp = s.bpp := rfl
@[simp] theorem markClear_ent (s : State) : (markClear s).ent = s.ent := rfl
@[simp] theorem markClear_entValid (s : State) : (markClear s).entValid = s.entValid := rfl
@[simp] theorem markClear_nBits (s : State) : (markClear s).nBits = s.nBits := rfl
@[simp] theorem markClear_freeEnt (s : State) : (markClear s).freeEnt = s.freeEnt := rfl
@[simp] theorem markClear_clearFlag (s : State) : (markClear s).clearFlag = true := rfl
@[simp] theorem markClear_acc (s : State) : (markClear s).acc = s.acc := rfl
@[simp] theorem markClear_curBits (s : State) : (markClear s).curBits = s.curBits := rfl
@[simp] theorem markClear_bufCnt (s : State) : (markClear s).bufCnt = s.bufCnt := rfl
@[simp] theorem markClear_ht (s : State) : (markClear s).ht = s.ht := rfl
@[simp] theorem markClear_buf (s : State) : (markClear s).buf = s.buf := rfl
@[simp] theorem markClear_inputs (s : State) : (markClear s).inputs = s.inputs := rfl
@[simp] theorem markClear_out (s : State) : (markClear s).out = s.out := rfl
@[simp] theorem markClear_freeCount (s : State) : (markClear s).freeCount = s.freeCount := rfl

/-! `storeByte` -/

@[simp] theorem storeByte_phase (b : Byte) (s : State) : (storeByte b s).phase = s.phase := rfl
@[simp] theorem storeByte_faultCode (b : Byte) (s : State) : (storeByte b s).faultCode = s.faultCode := rfl
@[simp] theorem storeByte_bpp (b : Byte) (s : State) : (storeByte b s).bpp = s.bpp := rfl
@[simp] theorem storeByte_ent (b : Byte) (s : State) : (storeByte b s).ent = s.ent := rfl
@[simp] theorem storeByte_entValid (b : Byte) (s : State) : (storeByte b s).entValid = s.entValid := rfl
@[simp] theorem storeByte_nBits (b : Byte) (s : State) : (storeByte b s).nBits = s.nBits := rfl
@[simp] theorem storeByte_freeEnt (b : Byte) (s : State) : (storeByte b s).freeEnt = s.freeEnt := rfl
@[simp] theorem storeByte_clearFlag (b : Byte) (s : State) : (storeByte b s).clearFlag = s.clearFlag := rfl
@[simp] theorem storeByte_acc (b : Byte) (s : State) : (storeByte b s).acc = s.acc := rfl
@[simp] theorem storeByte_curBits (b : Byte) (s : State) : (storeByte b s).curBits = s.curBits := rfl
@[simp] theorem storeByte_bufCnt (b : Byte) (s : State) : (storeByte b s).bufCnt = s.bufCnt + 1#8 := rfl
@[simp] theorem storeByte_ht (b : Byte) (s : State) : (storeByte b s).ht = s.ht := rfl
@[simp] theorem storeByte_buf (b : Byte) (s : State) : (storeByte b s).buf = Memory.write s.buf s.bufCnt.toNat b := rfl
@[simp] theorem storeByte_inputs (b : Byte) (s : State) : (storeByte b s).inputs = s.inputs := rfl
@[simp] theorem storeByte_out (b : Byte) (s : State) : (storeByte b s).out = s.out := rfl
@[simp] theorem storeByte_freeCount (b : Byte) (s : State) : (storeByte b s).freeCount = s.freeCount := rfl

/-! `terminate` -/

@[simp] theorem terminate_phase (s : State) : (terminate s).phase = s.phase := rfl
@[simp] theorem terminate_faultCode (s : State) : (terminate s).faultCode = s.faultCode := rfl
@[simp] theorem terminate_bpp (s : State) : (terminate s).bpp = s.bpp := rfl
@[simp] theorem terminate_ent (s : State) : (terminate s).ent = s.ent := rfl
@[simp] theorem terminate_entValid (s : State) : (terminate s).entValid = s.entValid := rfl
@[simp] theorem terminate_nBits (s : State) : (terminate s).nBits = s.nBits := rfl
@[simp] theorem terminate_freeEnt (s : State) : (terminate s).freeEnt = s.freeEnt := rfl
@[simp] theorem terminate_clearFlag (s : State) : (terminate s).clearFlag = s.clearFlag := rfl
@[simp] theorem terminate_acc (s : State) : (terminate s).acc = s.acc := rfl
@[simp] theorem terminate_curBits (s : State) : (terminate s).curBits = s.curBits := rfl
@[simp] theorem terminate_bufCnt (s : State) : (terminate s).bufCnt = s.bufCnt := rfl
@[simp] theorem terminate_ht (s : State) : (terminate s).ht = s.ht := rfl
@[simp] theorem terminate_buf (s : State) : (terminate s).buf = s.buf := rfl
@[simp] theorem terminate_inputs (s : State) : (terminate s).inputs = s.inputs := rfl
@[simp] theorem terminate_out (s : State) : (terminate s).out = s.out ++ [0x00#8] := rfl
@[simp] theorem terminate_freeCount (s : State) : (terminate s).freeCount = s.freeCount := rfl

/-! `appendCode` -/

@[simp] theorem appendCode_phase (k : BitVec 12) (s : State) : (appendCode k s).phase = s.phase := rfl
@[simp] theorem appendCode_faultCode (k : BitVec 12) (s : State) : (appendCode k s).faultCode = s.faultCode := rfl
@[simp] theorem appendCode_bpp (k : BitVec 12) (s : State) : (appendCode k s).bpp = s.bpp := rfl
@[simp] theorem appendCode_ent (k : BitVec 12) (s : State) : (appendCode k s).ent = s.ent := rfl
@[simp] theorem appendCode_entValid (k : BitVec 12) (s : State) : (appendCode k s).entValid = s.entValid := rfl
@[simp] theorem appendCode_nBits (k : BitVec 12) (s : State) : (appendCode k s).nBits = s.nBits := rfl
@[simp] theorem appendCode_freeEnt (k : BitVec 12) (s : State) : (appendCode k s).freeEnt = s.freeEnt := rfl
@[simp] theorem appendCode_clearFlag (k : BitVec 12) (s : State) : (appendCode k s).clearFlag = s.clearFlag := rfl
@[simp] theorem appendCode_acc (k : BitVec 12) (s : State) : (appendCode k s).acc = s.acc ||| (k.setWidth 32 <<< s.curBits.toNat) := rfl
@[simp] theorem appendCode_curBits (k : BitVec 12) (s : State) : (appendCode k s).curBits = s.curBits + s.nBits.setWidth 5 := rfl
@[simp] theorem appendCode_bufCnt (k : BitVec 12) (s : State) : (appendCode k s).bufCnt = s.bufCnt := rfl
@[simp] theorem appendCode_ht (k : BitVec 12) (s : State) : (appendCode k s).ht = s.ht := rfl
@[simp] theorem appendCode_buf (k : BitVec 12) (s : State) : (appendCode k s).buf = s.buf := rfl
@[simp] theorem appendCode_inputs (k : BitVec 12) (s : State) : (appendCode k s).inputs = s.inputs := rfl
@[simp] theorem appendCode_out (k : BitVec 12) (s : State) : (appendCode k s).out = s.out := rfl
@[simp] theorem appendCode_freeCount (k : BitVec 12) (s : State) : (appendCode k s).freeCount = s.freeCount := rfl

/-! `dropByte` -/

@[simp] theorem dropByte_phase (s : State) : (dropByte s).phase = s.phase := rfl
@[simp] theorem dropByte_faultCode (s : State) : (dropByte s).faultCode = s.faultCode := rfl
@[simp] theorem dropByte_bpp (s : State) : (dropByte s).bpp = s.bpp := rfl
@[simp] theorem dropByte_ent (s : State) : (dropByte s).ent = s.ent := rfl
@[simp] theorem dropByte_entValid (s : State) : (dropByte s).entValid = s.entValid := rfl
@[simp] theorem dropByte_nBits (s : State) : (dropByte s).nBits = s.nBits := rfl
@[simp] theorem dropByte_freeEnt (s : State) : (dropByte s).freeEnt = s.freeEnt := rfl
@[simp] theorem dropByte_clearFlag (s : State) : (dropByte s).clearFlag = s.clearFlag := rfl
@[simp] theorem dropByte_acc (s : State) : (dropByte s).acc = s.acc >>> 8 := rfl
@[simp] theorem dropByte_curBits (s : State) : (dropByte s).curBits = s.curBits - 8#5 := rfl
@[simp] theorem dropByte_bufCnt (s : State) : (dropByte s).bufCnt = s.bufCnt := rfl
@[simp] theorem dropByte_ht (s : State) : (dropByte s).ht = s.ht := rfl
@[simp] theorem dropByte_buf (s : State) : (dropByte s).buf = s.buf := rfl
@[simp] theorem dropByte_inputs (s : State) : (dropByte s).inputs = s.inputs := rfl
@[simp] theorem dropByte_out (s : State) : (dropByte s).out = s.out := rfl
@[simp] theorem dropByte_freeCount (s : State) : (dropByte s).freeCount = s.freeCount := rfl

/-! `emptyAcc` -/

@[simp] theorem emptyAcc_phase (s : State) : (emptyAcc s).phase = s.phase := rfl
@[simp] theorem emptyAcc_faultCode (s : State) : (emptyAcc s).faultCode = s.faultCode := rfl
@[simp] theorem emptyAcc_bpp (s : State) : (emptyAcc s).bpp = s.bpp := rfl
@[simp] theorem emptyAcc_ent (s : State) : (emptyAcc s).ent = s.ent := rfl
@[simp] theorem emptyAcc_entValid (s : State) : (emptyAcc s).entValid = s.entValid := rfl
@[simp] theorem emptyAcc_nBits (s : State) : (emptyAcc s).nBits = s.nBits := rfl
@[simp] theorem emptyAcc_freeEnt (s : State) : (emptyAcc s).freeEnt = s.freeEnt := rfl
@[simp] theorem emptyAcc_clearFlag (s : State) : (emptyAcc s).clearFlag = s.clearFlag := rfl
@[simp] theorem emptyAcc_acc (s : State) : (emptyAcc s).acc = 0#32 := rfl
@[simp] theorem emptyAcc_curBits (s : State) : (emptyAcc s).curBits = 0#5 := rfl
@[simp] theorem emptyAcc_bufCnt (s : State) : (emptyAcc s).bufCnt = s.bufCnt := rfl
@[simp] theorem emptyAcc_ht (s : State) : (emptyAcc s).ht = s.ht := rfl
@[simp] theorem emptyAcc_buf (s : State) : (emptyAcc s).buf = s.buf := rfl
@[simp] theorem emptyAcc_inputs (s : State) : (emptyAcc s).inputs = s.inputs := rfl
@[simp] theorem emptyAcc_out (s : State) : (emptyAcc s).out = s.out := rfl
@[simp] theorem emptyAcc_freeCount (s : State) : (emptyAcc s).freeCount = s.freeCount := rfl

/-! `insertEntry` -/

@[simp] theorem insertEntry_phase (i : Nat) (e : BitVec 12) (c : BitVec 8) (v : BitVec 12) (s : State) : (insertEntry i e c v s).phase = s.phase := rfl
@[simp] theorem insertEntry_faultCode (i : Nat) (e : BitVec 12) (c : BitVec 8) (v : BitVec 12) (s : State) : (insertEntry i e c v s).faultCode = s.faultCode := rfl
@[simp] theorem insertEntry_bpp (i : Nat) (e : BitVec 12) (c : BitVec 8) (v : BitVec 12) (s : State) : (insertEntry i e c v s).bpp = s.bpp := rfl
@[simp] theorem insertEntry_ent (i : Nat) (e : BitVec 12) (c : BitVec 8) (v : BitVec 12) (s : State) : (insertEntry i e c v s).ent = s.ent := rfl
@[simp] theorem insertEntry_entValid (i : Nat) (e : BitVec 12) (c : BitVec 8) (v : BitVec 12) (s : State) : (insertEntry i e c v s).entValid = s.entValid := rfl
@[simp] theorem insertEntry_nBits (i : Nat) (e : BitVec 12) (c : BitVec 8) (v : BitVec 12) (s : State) : (insertEntry i e c v s).nBits = s.nBits := rfl
@[simp] theorem insertEntry_freeEnt (i : Nat) (e : BitVec 12) (c : BitVec 8) (v : BitVec 12) (s : State) : (insertEntry i e c v s).freeEnt = s.freeEnt := rfl
@[simp] theorem insertEntry_clearFlag (i : Nat) (e : BitVec 12) (c : BitVec 8) (v : BitVec 12) (s : State) : (insertEntry i e c v s).clearFlag = s.clearFlag := rfl
@[simp] theorem insertEntry_acc (i : Nat) (e : BitVec 12) (c : BitVec 8) (v : BitVec 12) (s : State) : (insertEntry i e c v s).acc = s.acc := rfl
@[simp] theorem insertEntry_curBits (i : Nat) (e : BitVec 12) (c : BitVec 8) (v : BitVec 12) (s : State) : (insertEntry i e c v s).curBits = s.curBits := rfl
@[simp] theorem insertEntry_bufCnt (i : Nat) (e : BitVec 12) (c : BitVec 8) (v : BitVec 12) (s : State) : (insertEntry i e c v s).bufCnt = s.bufCnt := rfl
@[simp] theorem insertEntry_ht (i : Nat) (e : BitVec 12) (c : BitVec 8) (v : BitVec 12) (s : State) : (insertEntry i e c v s).ht = some (Memory.write (s.ht.getD []) i { valid := true, key := keyOf e c, code := v }) := rfl
@[simp] theorem insertEntry_buf (i : Nat) (e : BitVec 12) (c : BitVec 8) (v : BitVec 12) (s : State) : (insertEntry i e c v s).buf = s.buf := rfl
@[simp] theorem insertEntry_inputs (i : Nat) (e : BitVec 12) (c : BitVec 8) (v : BitVec 12) (s : State) : (insertEntry i e c v s).inputs = s.inputs := rfl
@[simp] theorem insertEntry_out (i : Nat) (e : BitVec 12) (c : BitVec 8) (v : BitVec 12) (s : State) : (insertEntry i e c v s).out = s.out := rfl
@[simp] theorem insertEntry_freeCount (i : Nat) (e : BitVec 12) (c : BitVec 8) (v : BitVec 12) (s : State) : (insertEntry i e c v s).freeCount = s.freeCount := rfl

/-! `clearTable` -/

@[simp] theorem clearTable_phase (s : State) : (clearTable s).phase = s.phase := rfl
@[simp] theorem clearTable_faultCode (s : State) : (clearTable s).faultCode = s.faultCode := rfl
@[simp] theorem clearTable_bpp (s : State) : (clearTable s).bpp = s.bpp := rfl
@[simp] theorem clearTable_ent (s : State) : (clearTable s).ent = s.ent := rfl
@[simp] theorem clearTable_entValid (s : State) : (clearTable s).entValid = s.entValid := rfl
@[simp] theorem clearTable_nBits (s : State) : (clearTable s).nBits = s.nBits := rfl
@[simp] theorem clearTable_freeEnt (s : State) : (clearTable s).freeEnt = s.freeEnt := rfl
@[simp] theorem clearTable_clearFlag (s : State) : (clearTable s).clearFlag = s.clearFlag := rfl
@[simp] theorem clearTable_acc (s : State) : (clearTable s).acc = s.acc := rfl
@[simp] theorem clearTable_curBits (s : State) : (clearTable s).curBits = s.curBits := rfl
@[simp] theorem clearTable_bufCnt (s : State) : (clearTable s).bufCnt = s.bufCnt := rfl
@[simp] theorem clearTable_ht (s : State) : (clearTable s).ht = some ((s.ht.getD []).map invalidate) := rfl
@[simp] theorem clearTable_buf (s : State) : (clearTable s).buf = s.buf := rfl
@[simp] theorem clearTable_inputs (s : State) : (clearTable s).inputs = s.inputs := rfl
@[simp] theorem clearTable_out (s : State) : (clearTable s).out = s.out := rfl
@[simp] theorem clearTable_freeCount (s : State) : (clearTable s).freeCount = s.freeCount := rfl

/-! `beginFrame` -/

@[simp] theorem beginFrame_phase (b : BitVec 4) (s : State) : (beginFrame b s).phase = .run := rfl
@[simp] theorem beginFrame_faultCode (b : BitVec 4) (s : State) : (beginFrame b s).faultCode = s.faultCode := rfl
@[simp] theorem beginFrame_bpp (b : BitVec 4) (s : State) : (beginFrame b s).bpp = b := rfl
@[simp] theorem beginFrame_ent (b : BitVec 4) (s : State) : (beginFrame b s).ent = 0#12 := rfl
@[simp] theorem beginFrame_entValid (b : BitVec 4) (s : State) : (beginFrame b s).entValid = false := rfl
@[simp] theorem beginFrame_nBits (b : BitVec 4) (s : State) : (beginFrame b s).nBits = BitVec.ofNat 4 (ics b + 1) := rfl
@[simp] theorem beginFrame_freeEnt (b : BitVec 4) (s : State) : (beginFrame b s).freeEnt = BitVec.ofNat 13 (firstCode b) := rfl
@[simp] theorem beginFrame_clearFlag (b : BitVec 4) (s : State) : (beginFrame b s).clearFlag = false := rfl
@[simp] theorem beginFrame_acc (b : BitVec 4) (s : State) : (beginFrame b s).acc = 0#32 := rfl
@[simp] theorem beginFrame_curBits (b : BitVec 4) (s : State) : (beginFrame b s).curBits = 0#5 := rfl
@[simp] theorem beginFrame_bufCnt (b : BitVec 4) (s : State) : (beginFrame b s).bufCnt = 0#8 := rfl
@[simp] theorem beginFrame_ht (b : BitVec 4) (s : State) : (beginFrame b s).ht = some ((s.ht.getD []).map invalidate) := rfl
@[simp] theorem beginFrame_buf (b : BitVec 4) (s : State) : (beginFrame b s).buf = s.buf := rfl
@[simp] theorem beginFrame_inputs (b : BitVec 4) (s : State) : (beginFrame b s).inputs = s.inputs := rfl
@[simp] theorem beginFrame_out (b : BitVec 4) (s : State) : (beginFrame b s).out = s.out := rfl
@[simp] theorem beginFrame_freeCount (b : BitVec 4) (s : State) : (beginFrame b s).freeCount = s.freeCount := rfl

/-! `enterString` -/

@[simp] theorem enterString_phase (i : Nat) (c : BitVec 8) (s : State) : (enterString i c s).phase = s.phase := rfl
@[simp] theorem enterString_faultCode (i : Nat) (c : BitVec 8) (s : State) : (enterString i c s).faultCode = s.faultCode := rfl
@[simp] theorem enterString_bpp (i : Nat) (c : BitVec 8) (s : State) : (enterString i c s).bpp = s.bpp := rfl
@[simp] theorem enterString_ent (i : Nat) (c : BitVec 8) (s : State) : (enterString i c s).ent = s.ent := rfl
@[simp] theorem enterString_entValid (i : Nat) (c : BitVec 8) (s : State) : (enterString i c s).entValid = s.entValid := rfl
@[simp] theorem enterString_nBits (i : Nat) (c : BitVec 8) (s : State) : (enterString i c s).nBits = s.nBits := rfl
@[simp] theorem enterString_freeEnt (i : Nat) (c : BitVec 8) (s : State) : (enterString i c s).freeEnt = s.freeEnt + 1#13 := rfl
@[simp] theorem enterString_clearFlag (i : Nat) (c : BitVec 8) (s : State) : (enterString i c s).clearFlag = s.clearFlag := rfl
@[simp] theorem enterString_acc (i : Nat) (c : BitVec 8) (s : State) : (enterString i c s).acc = s.acc := rfl
@[simp] theorem enterString_curBits (i : Nat) (c : BitVec 8) (s : State) : (enterString i c s).curBits = s.curBits := rfl
@[simp] theorem enterString_bufCnt (i : Nat) (c : BitVec 8) (s : State) : (enterString i c s).bufCnt = s.bufCnt := rfl
@[simp] theorem enterString_ht (i : Nat) (c : BitVec 8) (s : State) : (enterString i c s).ht = some (Memory.write (s.ht.getD []) i { valid := true, key := keyOf s.ent c, code := s.freeEnt.setWidth 12 }) := rfl
@[simp] theorem enterString_buf (i : Nat) (c : BitVec 8) (s : State) : (enterString i c s).buf = s.buf := rfl
@[simp] theorem enterString_inputs (i : Nat) (c : BitVec 8) (s : State) : (enterString i c s).inputs = s.inputs := rfl
@[simp] theorem enterString_out (i : Nat) (c : BitVec 8) (s : State) : (enterString i c s).out = s.out := rfl
@[simp] theorem enterString_freeCount (i : Nat) (c : BitVec 8) (s : State) : (enterString i c s).freeCount = s.freeCount := rfl

/-! `closeFrame` -/

@[simp] theorem closeFrame_phase (s : State) : (closeFrame s).phase = .done := rfl
@[simp] theorem closeFrame_faultCode (s : State) : (closeFrame s).faultCode = s.faultCode := rfl
@[simp] theorem closeFrame_bpp (s : State) : (closeFrame s).bpp = s.bpp := rfl
@[simp] theorem closeFrame_ent (s : State) : (closeFrame s).ent = s.ent := rfl
@[simp] theorem closeFrame_entValid (s : State) : (closeFrame s).entValid = false := rfl
@[simp] theorem closeFrame_nBits (s : State) : (closeFrame s).nBits = s.nBits := rfl
@[simp] theorem closeFrame_freeEnt (s : State) : (closeFrame s).freeEnt = s.freeEnt := rfl
@[simp] theorem closeFrame_clearFlag (s : State) : (closeFrame s).clearFlag = s.clearFlag := rfl
@[simp] theorem closeFrame_acc (s : State) : (closeFrame s).acc = s.acc := rfl
@[simp] theorem closeFrame_curBits (s : State) : (closeFrame s).curBits = s.curBits := rfl
@[simp] theorem closeFrame_bufCnt (s : State) : (closeFrame s).bufCnt = s.bufCnt := rfl
@[simp] theorem closeFrame_ht (s : State) : (closeFrame s).ht = s.ht := rfl
@[simp] theorem closeFrame_buf (s : State) : (closeFrame s).buf = s.buf := rfl
@[simp] theorem closeFrame_inputs (s : State) : (closeFrame s).inputs = s.inputs := rfl
@[simp] theorem closeFrame_out (s : State) : (closeFrame s).out = s.out ++ [0x00#8] := rfl
@[simp] theorem closeFrame_freeCount (s : State) : (closeFrame s).freeCount = s.freeCount := rfl

/-! `presentWord` -/

@[simp] theorem presentWord_phase (w : CmdWord) (s : State) : (presentWord w s).phase = s.phase := rfl
@[simp] theorem presentWord_faultCode (w : CmdWord) (s : State) : (presentWord w s).faultCode = s.faultCode := rfl
@[simp] theorem presentWord_bpp (w : CmdWord) (s : State) : (presentWord w s).bpp = s.bpp := rfl
@[simp] theorem presentWord_ent (w : CmdWord) (s : State) : (presentWord w s).ent = s.ent := rfl
@[simp] theorem presentWord_entValid (w : CmdWord) (s : State) : (presentWord w s).entValid = s.entValid := rfl
@[simp] theorem presentWord_nBits (w : CmdWord) (s : State) : (presentWord w s).nBits = s.nBits := rfl
@[simp] theorem presentWord_freeEnt (w : CmdWord) (s : State) : (presentWord w s).freeEnt = s.freeEnt := rfl
@[simp] theorem presentWord_clearFlag (w : CmdWord) (s : State) : (presentWord w s).clearFlag = s.clearFlag := rfl
@[simp] theorem presentWord_acc (w : CmdWord) (s : State) : (presentWord w s).acc = s.acc := rfl
@[simp] theorem presentWord_curBits (w : CmdWord) (s : State) : (presentWord w s).curBits = s.curBits := rfl
@[simp] theorem presentWord_bufCnt (w : CmdWord) (s : State) : (presentWord w s).bufCnt = s.bufCnt := rfl
@[simp] theorem presentWord_ht (w : CmdWord) (s : State) : (presentWord w s).ht = s.ht := rfl
@[simp] theorem presentWord_buf (w : CmdWord) (s : State) : (presentWord w s).buf = s.buf := rfl
@[simp] theorem presentWord_inputs (w : CmdWord) (s : State) : (presentWord w s).inputs = .word w :: s.inputs := rfl
@[simp] theorem presentWord_out (w : CmdWord) (s : State) : (presentWord w s).out = s.out := rfl
@[simp] theorem presentWord_freeCount (w : CmdWord) (s : State) : (presentWord w s).freeCount = s.freeCount := rfl

/-! `widthUpdate` writes only `nBits` and `clearFlag` -/

@[simp] theorem widthUpdate_phase (s : State) : (widthUpdate s).phase = s.phase := by unfold widthUpdate; split_ifs <;> rfl
@[simp] theorem widthUpdate_faultCode (s : State) : (widthUpdate s).faultCode = s.faultCode := by unfold widthUpdate; split_ifs <;> rfl
@[simp] theorem widthUpdate_bpp (s : State) : (widthUpdate s).bpp = s.bpp := by unfold widthUpdate; split_ifs <;> rfl
@[simp] theorem widthUpdate_ent (s : State) : (widthUpdate s).ent = s.ent := by unfold widthUpdate; split_ifs <;> rfl
@[simp] theorem widthUpdate_entValid (s : State) : (widthUpdate s).entValid = s.entValid := by unfold widthUpdate; split_ifs <;> rfl
@[simp] theorem widthUpdate_freeEnt (s : State) : (widthUpdate s).freeEnt = s.freeEnt := by unfold widthUpdate; split_ifs <;> rfl
@[simp] theorem widthUpdate_acc (s : State) : (widthUpdate s).acc = s.acc := by unfold widthUpdate; split_ifs <;> rfl
@[simp] theorem widthUpdate_curBits (s : State) : (widthUpdate s).curBits = s.curBits := by unfold widthUpdate; split_ifs <;> rfl
@[simp] theorem widthUpdate_bufCnt (s : State) : (widthUpdate s).bufCnt = s.bufCnt := by unfold widthUpdate; split_ifs <;> rfl
@[simp] theorem widthUpdate_ht (s : State) : (widthUpdate s).ht = s.ht := by unfold widthUpdate; split_ifs <;> rfl
@[simp] theorem widthUpdate_buf (s : State) : (widthUpdate s).buf = s.buf := by unfold widthUpdate; split_ifs <;> rfl
@[simp] theorem widthUpdate_inputs (s : State) : (widthUpdate s).inputs = s.inputs := by unfold widthUpdate; split_ifs <;> rfl
@[simp] theorem widthUpdate_out (s : State) : (widthUpdate s).out = s.out := by unfold widthUpdate; split_ifs <;> rfl
@[simp] theorem widthUpdate_freeCount (s : State) : (widthUpdate s).freeCount = s.freeCount := by unfold widthUpdate; split_ifs <;> rfl

@[simp] theorem widthUpdate_clearFlag (s : State) : (widthUpdate s).clearFlag = false := by
  unfold widthUpdate; split_ifs with h h' <;> simp_all

end Sys2Proof.Machine
end

