-- ==== Sys2Proof/Laws/SubBlock.lean ====
section
/-! SUPPORT. What ByteOut and FlushBlock do: the whole effect on the output and the buffer, and the frame. -/

namespace Sys2Proof.Machine

theorem readRange_held {s : State} (h : BufInv s) : Memory.readRange s.buf 0 s.bufCnt.toNat = some (heldBytes s) := by
  have : (Memory.readRange s.buf 0 s.bufCnt.toNat).isSome :=
    Memory.readRange_isSome.2 fun j _ hj => h.held j (by omega)
  obtain ⟨w, hw⟩ := Option.isSome_iff_exists.1 this
  simp [heldBytes, hw]

theorem heldBytes_length {s : State} (h : BufInv s) : (heldBytes s).length = s.bufCnt.toNat :=
  Memory.readRange_length (readRange_held h)

/-- The whole effect of a run of `ByteOut`s: the bytes `bs` go through the buffer from `s` to `t`. -/
structure Streamed (bs : List Byte) (s t : State) : Prop where
  /-- `OUT` and the held bytes. -/
  stream : streamOf t = bs.foldl pushByte (streamOf s)
  buffer : BufInv t
  count : t.bufCnt.toNat = (s.bufCnt.toNat + bs.length) % 255
  /-- Only the bytes stored are written. -/
  stored : ∀ j, (∀ k < bs.length, j ≠ (s.bufCnt.toNat + k) % 255) → Memory.read t.buf j = Memory.read s.buf j
  wf : Memory.wf Config.bufCap s.buf → Memory.wf Config.bufCap t.buf

theorem Streamed.refl {s : State} (h : BufInv s) : Streamed [] s s :=
  ⟨rfl, h, by have := h.bufCnt; simp; omega, fun _ _ => rfl, id⟩

theorem Streamed.trans {as bs : List Byte} {s t u : State} (h : Streamed as s t) (g : Streamed bs t u) :
    Streamed (as ++ bs) s u := by
  refine ⟨?_, g.buffer, ?_, fun j hj => ?_, g.wf ∘ h.wf⟩
  · rw [List.foldl_append, ← h.stream, g.stream]
  · rw [g.count, h.count, List.length_append]; omega
  · rw [g.stored j fun k hk => ?_, h.stored j fun k hk => hj k (by simp; omega)]
    have := hj (as.length + k) (by simp; omega)
    rw [h.count]; omega
/-- An update of other fields, before or after, does not touch the stream. -/
theorem Streamed.congr {bs : List Byte} {s t s' t' : State} (h : Streamed bs s t)
    (hs : (s'.out, s'.buf, s'.bufCnt) = (s.out, s.buf, s.bufCnt))
    (ht : (t'.out, t'.buf, t'.bufCnt) = (t.out, t.buf, t.bufCnt)) : Streamed bs s' t' := by
  simp only [Prod.mk.injEq] at hs ht
  obtain ⟨h1, ⟨h2, h2'⟩, h3, h4, h5⟩ := h
  refine ⟨?_, ⟨?_, ?_⟩, ?_, ?_, ?_⟩ <;> simpa only [streamOf, heldBytes, hs, ht] using (by assumption)

theorem flushBlock_empty {s : State} (h : s.bufCnt = 0#8) : flushBlock s = .ok s := by simp [flushBlock, h]

theorem flushBlock_bytes {s : State} {bytes : List Byte} (h0 : s.bufCnt ≠ 0#8)
    (h : Memory.readRange s.buf 0 s.bufCnt.toNat = some bytes) :
    flushBlock s = .ok { outBytes (s.bufCnt :: bytes) s with bufCnt := 0#8 } := by simp [flushBlock, h0, h]

/-- `FlushBlock` on a buffer whose bytes hold values. -/
theorem flushBlock_spec {s : State} (h : BufInv s) :
    ∃ t, flushBlock s = .ok t ∧
      t.out = s.out ++ (if heldBytes s = [] then [] else BitVec.ofNat 8 (heldBytes s).length :: heldBytes s) ∧
      t.bufCnt = 0#8 ∧ t = { s with bufCnt := 0#8, out := t.out } := by
  have hl := heldBytes_length h
  by_cases h0 : s.bufCnt = 0#8
  · refine ⟨s, flushBlock_empty h0, ?_, h0, ?_⟩
    · rw [h0] at hl; simp [List.length_eq_zero_iff.1 hl]
    · rw [← h0]
  · refine ⟨_, flushBlock_bytes h0 (readRange_held h), ?_, rfl, rfl⟩
    have : heldBytes s ≠ [] := by
      intro he; rw [he] at hl; exact h0 (BitVec.eq_of_toNat_eq (by simpa using hl.symm))
    simp [this, hl]

/-- `ByteOut` with room in the buffer. -/
theorem byteOut_spec {s : State} (h : BufInv s) (b : Byte) : ∃ t, byteOut b s = .ok t ∧ Streamed [b] s t ∧
    t = { s with buf := t.buf, bufCnt := t.bufCnt, out := t.out } := by
  have hc := h.bufCnt
  have hlt : s.bufCnt.toNat < 255 := by omega
  have hn : (s.bufCnt + 1#8).toNat = s.bufCnt.toNat + 1 := by rw [BitVec.toNat_add]; simp; omega
  have hl := heldBytes_length h
  have hr := Memory.readRange_write_end b (readRange_held h)
  have hwf : Memory.wf Config.bufCap s.buf → Memory.wf Config.bufCap (Memory.write s.buf s.bufCnt.toNat b) :=
    fun hw => Memory.write_wf b hw hlt
  have hst : ∀ j, (∀ k < [b].length, j ≠ (s.bufCnt.toNat + k) % 255) →
      Memory.read (Memory.write s.buf s.bufCnt.toNat b) j = Memory.read s.buf j := fun j hj =>
    Memory.read_write_other _ _ (by have := hj 0 (by simp); rwa [Nat.add_zero, Nat.mod_eq_of_lt hlt] at this)
  by_cases hf : s.bufCnt.toNat = 254
  · have hb : byteOut b s = flushBlock (storeByte b s) := by simp [byteOut, hn, hf]
    have h0 : (storeByte b s).bufCnt ≠ 0#8 := fun he => by
      have := congrArg BitVec.toNat he; simp only [storeByte_bufCnt, hn] at this; simp [hf] at this
    have hr' : Memory.readRange (storeByte b s).buf 0 (storeByte b s).bufCnt.toNat = some (heldBytes s ++ [b]) := by
      simpa only [storeByte_buf, storeByte_bufCnt, hn] using hr
    refine ⟨_, hb.trans (flushBlock_bytes h0 hr'), ⟨?_, ⟨by simp, by simp⟩, ?_, ?_, ?_⟩, rfl⟩
    · have hv : s.bufCnt + 1#8 = BitVec.ofNat 8 255 := BitVec.eq_of_toNat_eq (by rw [hn, hf]; rfl)
      simp only [streamOf, pushByte, List.foldl_cons, List.foldl_nil, hl, hf, if_true, storeByte_bufCnt, hv]
      simp [heldBytes, Memory.readRange]
    · simp [hf]
    · simpa using hst
    · simpa using hwf
  · have hb : byteOut b s = .ok (storeByte b s) := by
      simp only [byteOut, storeByte_bufCnt, hn]
      rw [if_pos hlt, if_neg (show ¬ s.bufCnt.toNat + 1 = 255 by omega)]
    refine ⟨_, hb, ⟨?_, ⟨?_, ?_⟩, ?_, ?_, ?_⟩, rfl⟩
    · have hh : heldBytes (storeByte b s) = heldBytes s ++ [b] := by
        simp only [heldBytes, storeByte_buf, storeByte_bufCnt, hn]; rw [hr]; rfl
      simp only [streamOf, pushByte, List.foldl_cons, List.foldl_nil, hl, hh]
      rw [if_neg (show ¬ s.bufCnt.toNat + 1 = 255 by omega)]; rfl
    · simp only [storeByte_bufCnt, hn]; omega
    · intro j hj
      simp only [storeByte_bufCnt, hn] at hj
      rw [storeByte_buf, Memory.read_write]
      split_ifs with he
      · rfl
      · exact h.held j (by omega)
    · simp only [storeByte_bufCnt, hn, List.length_singleton]; omega
    · simpa using hst
    · simpa using hwf

end Sys2Proof.Machine
end

