-- ==== Sys2Proof/Laws/CodeEmit.lean ====
section
/-! SUPPORT. What EmitCode, WidthUpdate and FlushAcc do: the bits, the bytes, the width, and the frame. -/

namespace Sys2Proof.Machine

theorem bytesOf_length (v n : Nat) : (bytesOf v n).length = n := by
  induction n generalizing v with
  | zero => rfl
  | succ n ih => simp [bytesOf, ih]

theorem bytesOf_append (v n k : Nat) : bytesOf v (n + k) = bytesOf v n ++ bytesOf (v / 256 ^ n) k := by
  induction n generalizing v with
  | zero => simp [bytesOf]
  | succ n ih =>
    rw [show n + 1 + k = (n + k) + 1 by omega]
    simp only [bytesOf, ih, List.cons_append, Nat.div_div_eq_div_mul, pow_succ']

/-- Only the low `8 * n` bits matter to the first `n` bytes. -/
theorem bytesOf_mod (v n m : Nat) (h : n ≤ m) : bytesOf (v % 256 ^ m) n = bytesOf v n := by
  induction n generalizing v m with
  | zero => rfl
  | succ n ih =>
    obtain ⟨m, rfl⟩ : ∃ k, m = k + 1 := ⟨m - 1, by omega⟩
    simp only [bytesOf]
    have e1 : v % 256 ^ (m + 1) / 256 = v / 256 % 256 ^ m := by
      rw [pow_succ', Nat.mod_mul_right_div_self]
    have e2 : v % 256 ^ (m + 1) % 256 = v % 256 := by
      rw [pow_succ', Nat.mod_mul_right_mod]
    rw [e1, ih _ _ (by omega)]
    congr 1
    apply BitVec.eq_of_toNat_eq
    simp only [BitVec.toNat_ofNat]
    exact e2

/-- `acc | (code << cur_bits)` is a sum, because the waiting bits lie below the code (R110, R116). -/
theorem appendCode_acc_toNat {k : BitVec 12} {s : State} (hc : s.curBits.toNat ≤ 7)
    (ha : s.acc.toNat < 2 ^ s.curBits.toNat) : (appendCode k s).acc.toNat = emitValue s k.toNat := by
  have hk := k.isLt
  have hp : 2 ^ s.curBits.toNat ≤ 2 ^ 7 := Nat.pow_le_pow_right (by norm_num) hc
  have hm : k.toNat * 2 ^ s.curBits.toNat < 2 ^ 32 :=
    calc k.toNat * 2 ^ s.curBits.toNat ≤ 2 ^ 12 * 2 ^ 7 := Nat.mul_le_mul hk.le hp
      _ < 2 ^ 32 := by norm_num
  simp only [appendCode_acc, emitValue, BitVec.toNat_or, BitVec.toNat_shiftLeft, BitVec.toNat_setWidth]
  rw [Nat.mod_eq_of_lt (show k.toNat < 2 ^ 32 by omega), Nat.shiftLeft_eq, Nat.mod_eq_of_lt hm, Nat.or_comm,
    ← Nat.shiftLeft_eq, ← Nat.shiftLeft_add_eq_or_of_lt ha, Nat.shiftLeft_eq, Nat.add_comm]

theorem appendCode_curBits_toNat {k : BitVec 12} {s : State} (hc : s.curBits.toNat ≤ 7) :
    (appendCode k s).curBits.toNat = emitBits s := by
  have := s.nBits.isLt
  simp only [appendCode_curBits, emitBits, BitVec.toNat_add, BitVec.toNat_setWidth]
  omega

theorem emitValue_lt {s : State} {k : Nat} (ha : s.acc.toNat < 2 ^ s.curBits.toNat) (hk : k < 2 ^ s.nBits.toNat) :
    emitValue s k < 2 ^ emitBits s := by
  have h : (k + 1) * 2 ^ s.curBits.toNat ≤ 2 ^ s.nBits.toNat * 2 ^ s.curBits.toNat := Nat.mul_le_mul_right _ hk
  rw [Nat.add_mul, Nat.one_mul] at h
  rw [emitBits, Nat.add_comm, pow_add, emitValue]
  omega

/-- `EmitCode`'s loop: the whole bytes of the accumulator go out, least significant first. -/
theorem drainBytes_spec (n : Nat) {s : State} (hb : BufInv s) (ha : s.acc.toNat < 2 ^ s.curBits.toNat)
    (hn : s.curBits.toNat < 8 * n + 8) :
    ∃ t, drainBytes n s = .ok t ∧ Streamed (bytesOf s.acc.toNat (s.curBits.toNat / 8)) s t ∧
      t.acc.toNat = s.acc.toNat / 256 ^ (s.curBits.toNat / 8) ∧ t.curBits.toNat = s.curBits.toNat % 8 ∧
      t = { s with acc := t.acc, curBits := t.curBits, buf := t.buf, bufCnt := t.bufCnt, out := t.out } := by
  induction n generalizing s with
  | zero =>
    have h0 : s.curBits.toNat / 8 = 0 := by omega
    exact ⟨s, rfl, by rw [h0]; exact Streamed.refl hb, by simp [h0], by omega, rfl⟩
  | succ n ih =>
    by_cases h8 : 8 ≤ s.curBits.toNat
    · obtain ⟨u, hu, hsu, hfu⟩ := byteOut_spec hb (s.acc.setWidth 8)
      have huc : u.curBits = s.curBits := by rw [hfu]
      have hua : u.acc = s.acc := by rw [hfu]
      have hdc : (dropByte u).curBits.toNat = s.curBits.toNat - 8 := by
        have := s.curBits.isLt
        simp only [dropByte_curBits, huc, BitVec.toNat_sub]
        have : (8#5).toNat = 8 := rfl
        omega
      have hda : (dropByte u).acc.toNat = s.acc.toNat / 256 := by
        simp only [dropByte_acc, hua, BitVec.toNat_ushiftRight, Nat.shiftRight_eq_div_pow, Nat.reducePow]
      have hlt : (dropByte u).acc.toNat < 2 ^ (dropByte u).curBits.toNat := by
        rw [hda, hdc, Nat.div_lt_iff_lt_mul (by norm_num), show 256 = 2 ^ 8 by rfl, ← pow_add,
          Nat.sub_add_cancel h8]
        exact ha
      have hdb : BufInv (dropByte u) := ⟨hsu.buffer.bufCnt, hsu.buffer.held⟩
      have hsd : Streamed [s.acc.setWidth 8] s (dropByte u) := hsu.congr rfl rfl
      obtain ⟨t, ht, hst, hta, htc, htf⟩ := ih hdb hlt (by omega)
      have hq : s.curBits.toNat / 8 = (dropByte u).curBits.toNat / 8 + 1 := by omega
      refine ⟨t, ?_, ?_, ?_, ?_, ?_⟩
      · simp [drainBytes, h8, hu, Except.bind, ht]
      · rw [hq, bytesOf, ← hda]
        have hbyte : BitVec.ofNat 8 s.acc.toNat = s.acc.setWidth 8 := by
          apply BitVec.eq_of_toNat_eq; simp
        rw [hbyte]
        exact hsd.trans hst
      · rw [hta, hda, Nat.div_div_eq_div_mul, hq, pow_succ']
      · omega
      · rw [htf]; simp only [dropByte]; rw [hfu]
    · have h0 : s.curBits.toNat / 8 = 0 := by omega
      refine ⟨s, ?_, by rw [h0]; exact Streamed.refl hb, by simp [h0], by omega, rfl⟩
      simp only [drainBytes]; rw [if_neg h8]

theorem widthUpdate_nBits (s : State) : (widthUpdate s).nBits =
    if s.clearFlag then BitVec.ofNat 4 (ics s.bpp + 1)
    else if maxCode s.nBits < s.freeEnt.toNat ∧ s.nBits.toNat < Config.maxBits then s.nBits + 1#4 else s.nBits := by
  unfold widthUpdate; split_ifs <;> rfl

/-- The new width, as a number (R112). -/
theorem widthUpdate_nBits_toNat {s : State} (hb : legalBpp s.bpp = true) (hn : s.nBits.toNat ≤ Config.maxBits) :
    (widthUpdate s).nBits.toNat =
      if s.clearFlag then ics s.bpp + 1 else widen s.freeEnt.toNat s.nBits.toNat := by
  have hi : ics s.bpp + 1 < 16 := by
    simp only [legalBpp, Bool.or_eq_true, beq_iff_eq] at hb
    rcases hb with ((h | h) | h) | h <;> rw [h] <;> decide
  rw [widthUpdate_nBits]
  unfold widen maxCode
  split_ifs with h1 h2
  · simp only [BitVec.toNat_ofNat]; omega
  · have := h2.2
    simp only [BitVec.toNat_add]
    have : (1#4).toNat = 1 := rfl
    simp only [Config.maxBits] at *
    omega
  · rfl

/-- `EmitCode` on a code that fits the width in force (R110, R116). -/
theorem emitCode_spec {s : State} {k : BitVec 12} (h : StreamInv s) (hk : k.toNat < 2 ^ s.nBits.toNat)
    (hn : s.nBits.toNat ≤ Config.maxBits) :
    ∃ t, emitCode k s = .ok t ∧ Streamed (bytesOf (emitValue s k.toNat) (emitBits s / 8)) s t ∧
      t.acc.toNat = emitValue s k.toNat / 256 ^ (emitBits s / 8) ∧ t.curBits.toNat = emitBits s % 8 ∧ StreamInv t ∧
      t.nBits = (widthUpdate s).nBits ∧
      t = { s with
        acc := t.acc, curBits := t.curBits, buf := t.buf, bufCnt := t.bufCnt, out := t.out, nBits := t.nBits,
        clearFlag := false } := by
  have hva := appendCode_acc_toNat (k := k) h.curBits h.acc
  have hvc := appendCode_curBits_toNat (k := k) h.curBits
  have hlt : (appendCode k s).acc.toNat < 2 ^ (appendCode k s).curBits.toNat := by
    rw [hva, hvc]; exact emitValue_lt h.acc hk
  have hbb : BufInv (appendCode k s) := ⟨h.bufCnt, h.held⟩
  obtain ⟨t, ht, hst, hta, htc, htf⟩ := drainBytes_spec 3 hbb hlt (by
    rw [hvc, emitBits]; have := h.curBits; simp only [Config.maxBits] at hn; omega)
  rw [hva, hvc] at hst hta
  rw [hvc] at htc
  have hwn : (widthUpdate t).nBits = (widthUpdate s).nBits := by
    rw [widthUpdate_nBits, widthUpdate_nBits, htf]; rfl
  refine ⟨widthUpdate t, ?_, hst.congr rfl (by simp), ?_, ?_, ⟨⟨?_, ?_⟩, ?_, ?_⟩, hwn, ?_⟩
  · simp [emitCode, ht, Except.map]
  · simpa using hta
  · simpa using htc
  · simpa using hst.buffer.bufCnt
  · simpa using hst.buffer.held
  · simp only [widthUpdate_curBits, htc]; omega
  · simp only [widthUpdate_acc, widthUpdate_curBits, hta, htc]
    rw [Nat.div_lt_iff_lt_mul (by positivity), show 256 = 2 ^ 8 by rfl, ← pow_mul, ← pow_add, Nat.mod_add_div]
    exact emitValue_lt h.acc hk
  · have hcf := widthUpdate_clearFlag t
    have e : widthUpdate t = { t with nBits := (widthUpdate t).nBits, clearFlag := (widthUpdate t).clearFlag } := by
      unfold widthUpdate; split_ifs <;> rfl
    rw [hcf] at e
    rw [e]
    simp only
    rw [htf]
    simp [appendCode]

/-- `FlushAcc` (R113). -/
theorem flushAcc_spec {s : State} (h : StreamInv s) :
    ∃ t, flushAcc s = .ok t ∧ Streamed (bytesOf s.acc.toNat ((s.curBits.toNat + 7) / 8)) s t ∧
      t = { s with acc := 0#32, curBits := 0#5, buf := t.buf, bufCnt := t.bufCnt, out := t.out } := by
  have hc := h.curBits
  by_cases h0 : s.curBits = 0#5
  · have hz : s.curBits.toNat = 0 := by rw [h0]; rfl
    have ha : s.acc = 0#32 := by
      have := h.acc; rw [hz] at this; apply BitVec.eq_of_toNat_eq; simpa using this
    refine ⟨s, by simp [flushAcc, h0], ?_, ?_⟩
    · rw [hz]; exact Streamed.refl h.toBufInv
    · rw [← h0, ← ha]
  · obtain ⟨t, ht, hst, htf⟩ := byteOut_spec h.toBufInv (s.acc.setWidth 8)
    have hz : s.curBits.toNat ≠ 0 := fun he => h0 (BitVec.eq_of_toNat_eq (by simpa using he))
    refine ⟨emptyAcc t, by simp [flushAcc, h0, ht, Except.map], ?_, ?_⟩
    · rw [show (s.curBits.toNat + 7) / 8 = 1 by omega]
      have hbyte : BitVec.ofNat 8 s.acc.toNat = s.acc.setWidth 8 := by
        apply BitVec.eq_of_toNat_eq; simp
      simp only [bytesOf, hbyte]
      exact hst.congr rfl rfl
    · rw [htf]; rfl

end Sys2Proof.Machine
end

