-- ==== Sys2Proof/Laws/StringTable.lean ====
section
/-! SUPPORT. The string table: keys, the slots Probe reads, when and where it stops, and what Insert and ClearTable do to
the valid entries. -/

namespace Sys2Proof.Machine

/-! Keys and hashes -/

@[simp] theorem keyPrefix_keyOf (e : BitVec 12) (c : BitVec 8) : keyPrefix (keyOf e c) = e := by
  apply BitVec.eq_of_getLsbD_eq
  intro i hi
  simp only [keyPrefix, keyOf, BitVec.getLsbD_extractLsb', BitVec.getLsbD_append]
  simp [hi]

@[simp] theorem keySymbol_keyOf (e : BitVec 12) (c : BitVec 8) : keySymbol (keyOf e c) = c := by
  apply BitVec.eq_of_getLsbD_eq
  intro i hi
  simp only [keySymbol, keyOf, BitVec.getLsbD_extractLsb', BitVec.getLsbD_append]
  simp [hi]

theorem keyOf_fields (k : BitVec 20) : keyOf (keyPrefix k) (keySymbol k) = k := by
  apply BitVec.eq_of_getLsbD_eq
  intro i hi
  simp only [keySymbol, keyPrefix, keyOf, BitVec.getLsbD_extractLsb', BitVec.getLsbD_append]
  by_cases h : i < 12
  · simp [h]
  · simp [h, show i - 12 < 8 by omega, show 12 + (i - 12) = i by omega]

theorem hashOf_lt (e : BitVec 12) (c : BitVec 8) : hashOf e c < 4096 := by
  have hc := c.isLt
  refine Nat.xor_lt_two_pow (n := 12) ?_ e.isLt
  rw [Nat.shiftLeft_eq]; simp only [Config.hshift]; omega

/-! The slots of a search -/

theorem displacement_bounds {i : Nat} (h : i < Config.hsize) : 1 ≤ displacement i ∧ displacement i < Config.hsize := by
  simp only [displacement, Config.hsize] at *; split_ifs <;> omega

/-- One step of the search is an addition modulo the table size. -/
theorem nextSlot_eq {d i : Nat} (hd : 1 ≤ d ∧ d < Config.hsize) (hi : i < Config.hsize) :
    nextSlot d i = (i + (Config.hsize - d)) % Config.hsize := by
  simp only [nextSlot, Config.hsize] at *; split_ifs <;> omega

theorem nextSlot_lt {d i : Nat} (hd : 1 ≤ d ∧ d < Config.hsize) (hi : i < Config.hsize) :
    nextSlot d i < Config.hsize := by
  rw [nextSlot_eq hd hi]; exact Nat.mod_lt _ (by norm_num)

/-- The slot read after `n` steps from slot `i`. -/
def slotAfter (d i n : Nat) : Nat := (nextSlot d)^[n] i

@[simp] theorem slotAfter_zero (d i : Nat) : slotAfter d i 0 = i := rfl

theorem slotAfter_succ (d i n : Nat) : slotAfter d i (n + 1) = slotAfter d (nextSlot d i) n := rfl

theorem slotAfter_eq {d i : Nat} (hd : 1 ≤ d ∧ d < Config.hsize) (hi : i < Config.hsize) (n : Nat) :
    slotAfter d i n = (i + n * (Config.hsize - d)) % Config.hsize := by
  induction n generalizing i with
  | zero => simp [Nat.mod_eq_of_lt hi]
  | succ n ih =>
    rw [slotAfter_succ, ih (nextSlot_lt hd hi), nextSlot_eq hd hi, Nat.mod_add_mod]
    congr 1; ring

theorem slotAfter_lt {d i : Nat} (hd : 1 ≤ d ∧ d < Config.hsize) (hi : i < Config.hsize) (n : Nat) :
    slotAfter d i n < Config.hsize := by
  rw [slotAfter_eq hd hi]; exact Nat.mod_lt _ (by norm_num)

theorem hsize_prime : Nat.Prime Config.hsize := by norm_num [Config.hsize]

/-- The search reads different slots until it has read them all (41_string_table.md R106: 5003 is prime). -/
theorem slotAfter_injOn {d i m n : Nat} (hd : 1 ≤ d ∧ d < Config.hsize) (hi : i < Config.hsize) (hm : m < Config.hsize)
    (hn : n < Config.hsize) (h : slotAfter d i m = slotAfter d i n) : m = n := by
  wlog hle : m ≤ n generalizing m n
  · exact (this hn hm h.symm (by omega)).symm
  rw [slotAfter_eq hd hi, slotAfter_eq hd hi] at h
  obtain ⟨k, rfl⟩ := Nat.exists_eq_add_of_le hle
  have hdvd : Config.hsize ∣ k * (Config.hsize - d) := by
    have h2 : (i + m * (Config.hsize - d)) ≡ (i + m * (Config.hsize - d)) + k * (Config.hsize - d) [MOD Config.hsize] := by
      unfold Nat.ModEq; rw [h]; congr 1; ring
    have := (Nat.modEq_iff_dvd' (by omega)).1 h2
    simpa using this
  rcases (Nat.Prime.dvd_mul hsize_prime).1 hdvd with hk | hk
  · rcases Nat.eq_zero_or_pos k with rfl | hk0
    · rfl
    · exact absurd (Nat.le_of_dvd hk0 hk) (by omega)
  · exact absurd (Nat.le_of_dvd (by omega) hk) (by omega)

/-! Where a search stops -/

/-- A search that reads at most `n` slots, slot `i` first. -/
def walk (t : List (Nat × HtEntry)) (k : BitVec 20) (d : Nat) : Nat → Nat → Except Fault (Bool × Nat)
  | 0, _ => .error .probeDiverges
  | n + 1, i =>
    match lookSlot t k i with
    | .hit => .ok (true, i)
    | .empty => .ok (false, i)
    | .other => walk t k d n (nextSlot d i)

theorem probeLoop_eq_walk (t : List (Nat × HtEntry)) (k : BitVec 20) (d n i : Nat) :
    probeLoop t k d n i = walk t k d n (nextSlot d i) := by
  induction n generalizing i with
  | zero => rfl
  | succ n ih => simp only [probeLoop, walk]; cases lookSlot t k (nextSlot d i) <;> simp [ih]

theorem probeTable_eq_walk (t : List (Nat × HtEntry)) (e : BitVec 12) (c : BitVec 8) :
    probeTable t e c = walk t (keyOf e c) (displacement (hashOf e c)) Config.hsize (hashOf e c) := by
  rw [show Config.hsize = (Config.hsize - 1) + 1 by rfl]
  simp only [probeTable, walk]
  cases lookSlot t (keyOf e c) (hashOf e c) <;> simp [probeLoop_eq_walk]

/-- What a slot must look like for a search to end there with the answer `b`. -/
def endLook (b : Bool) : SlotLook := if b then .hit else .empty

theorem walk_ok_iff (t : List (Nat × HtEntry)) (k : BitVec 20) (d n i : Nat) (b : Bool) (j : Nat) :
    walk t k d n i = .ok (b, j) ↔
      ∃ m < n, j = slotAfter d i m ∧ lookSlot t k j = endLook b ∧ ∀ l < m, lookSlot t k (slotAfter d i l) = .other := by
  induction n generalizing i with
  | zero => simp [walk]
  | succ n ih =>
    simp only [walk]
    cases hl : lookSlot t k i with
    | other =>
      simp only [ih]
      constructor
      · rintro ⟨m, hm, rfl, hj, ho⟩
        refine ⟨m + 1, by omega, rfl, hj, fun l hlt => ?_⟩
        cases l with
        | zero => exact hl
        | succ l => exact ho l (by omega)
      · rintro ⟨m, hm, rfl, hj, ho⟩
        cases m with
        | zero => simp only [slotAfter_zero] at hj; rw [hl] at hj; cases b <;> simp [endLook] at hj
        | succ m => exact ⟨m, by omega, rfl, hj, fun l hlt => ho (l + 1) (by omega)⟩
    | hit =>
      constructor
      · intro h; cases h; exact ⟨0, by omega, rfl, hl, fun l hlt => absurd hlt (by omega)⟩
      · rintro ⟨m, hm, rfl, hj, ho⟩
        cases m with
        | zero => rw [slotAfter_zero, hl] at hj; cases b <;> first | rfl | simp [endLook] at hj
        | succ m => have := ho 0 (by omega); rw [slotAfter_zero, hl] at this; cases this
    | empty =>
      constructor
      · intro h; cases h; exact ⟨0, by omega, rfl, hl, fun l hlt => absurd hlt (by omega)⟩
      · rintro ⟨m, hm, rfl, hj, ho⟩
        cases m with
        | zero => rw [slotAfter_zero, hl] at hj; cases b <;> first | rfl | simp [endLook] at hj
        | succ m => have := ho 0 (by omega); rw [slotAfter_zero, hl] at this; cases this

theorem walk_error_iff (t : List (Nat × HtEntry)) (k : BitVec 20) (d n i : Nat) (r : Fault) :
    walk t k d n i = .error r ↔ r = .probeDiverges ∧ ∀ m < n, lookSlot t k (slotAfter d i m) = .other := by
  induction n generalizing i with
  | zero => simp [walk, eq_comm]
  | succ n ih =>
    simp only [walk]
    cases hl : lookSlot t k i with
    | other =>
      simp only [ih]
      refine and_congr_right fun _ => ⟨fun h m hm => ?_, fun h m hm => h (m + 1) (by omega)⟩
      cases m with
      | zero => exact hl
      | succ m => exact h m (by omega)
    | hit => simp only [reduceCtorEq, false_iff]; intro h; have := h.2 0 (by omega); rw [slotAfter_zero, hl] at this; cases this
    | empty => simp only [reduceCtorEq, false_iff]; intro h; have := h.2 0 (by omega); rw [slotAfter_zero, hl] at this; cases this

/-- Probe's answer (R102): the first slot of its sequence that is empty or holds the key. -/
theorem probeTable_ok_iff (t : List (Nat × HtEntry)) (e : BitVec 12) (c : BitVec 8) (b : Bool) (j : Nat) :
    probeTable t e c = .ok (b, j) ↔
      ∃ m < Config.hsize, j = slotAfter (displacement (hashOf e c)) (hashOf e c) m ∧
        lookSlot t (keyOf e c) j = endLook b ∧
        ∀ l < m, lookSlot t (keyOf e c) (slotAfter (displacement (hashOf e c)) (hashOf e c) l) = .other := by
  rw [probeTable_eq_walk, walk_ok_iff]

theorem hashOf_lt_hsize (e : BitVec 12) (c : BitVec 8) : hashOf e c < Config.hsize :=
  (hashOf_lt e c).trans (by norm_num)

/-- Every slot Probe answers is in the table (20_memory.md R41). -/
theorem probeTable_slot_lt {t : List (Nat × HtEntry)} {e : BitVec 12} {c : BitVec 8} {b : Bool} {j : Nat}
    (h : probeTable t e c = .ok (b, j)) : j < Config.hsize := by
  obtain ⟨m, -, rfl, -⟩ := (probeTable_ok_iff t e c b j).1 h
  exact slotAfter_lt (displacement_bounds (hashOf_lt_hsize e c)) (hashOf_lt_hsize e c) m

/-! The valid entries -/

theorem mem_of_read {t : List (Nat × HtEntry)} {i : Nat} {e : HtEntry} (h : Memory.read t i = some e) : (i, e) ∈ t := by
  induction t with
  | nil => simp at h
  | cons x rest ih =>
    obtain ⟨b, u⟩ := x
    simp only [Memory.read] at h
    split_ifs at h with hb
    · cases h; subst hb; exact List.mem_cons_self
    · exact List.mem_cons_of_mem _ (ih h)

theorem mem_liveEntries {t : List (Nat × HtEntry)} {x : Nat × HtEntry} :
    x ∈ liveEntries t ↔ x ∈ t ∧ x.2.valid = true := by simp [liveEntries]

theorem lookSlot_eq_other {t : List (Nat × HtEntry)} {k : BitVec 20} {i : Nat} (h : lookSlot t k i = .other) :
    ∃ e, Memory.read t i = some e ∧ e.valid = true ∧ e.key ≠ k := by
  unfold lookSlot at h
  split at h
  · cases h
  · rename_i e he; split_ifs at h with h1 h2; exact ⟨e, he, by simpa using h1, h2⟩

theorem lookSlot_eq_hit {t : List (Nat × HtEntry)} {k : BitVec 20} {i : Nat} (h : lookSlot t k i = .hit) :
    ∃ e, Memory.read t i = some e ∧ e.valid = true ∧ e.key = k := by
  unfold lookSlot at h
  split at h
  · cases h
  · rename_i e he; split_ifs at h with h1 h2; exact ⟨e, he, by simpa using h1, h2⟩

theorem lookSlot_eq_empty_iff {t : List (Nat × HtEntry)} {k : BitVec 20} {i : Nat} :
    lookSlot t k i = .empty ↔ ∀ e, Memory.read t i = some e → e.valid = false := by
  unfold lookSlot
  split
  · simp_all
  · rename_i e he; split_ifs with h1 h2 <;> simp_all

/-- The slots a search has passed are the slots of different valid entries. -/
theorem passed_le_live {t : List (Nat × HtEntry)} {e : BitVec 12} {c : BitVec 8} {m : Nat} (hm : m ≤ Config.hsize)
    (h : ∀ l < m, lookSlot t (keyOf e c) (slotAfter (displacement (hashOf e c)) (hashOf e c) l) = .other) :
    m ≤ (liveEntries t).length := by
  have hd := displacement_bounds (hashOf_lt_hsize e c)
  have hi := hashOf_lt_hsize e c
  have hnd : ((List.range m).map (slotAfter (displacement (hashOf e c)) (hashOf e c))).Nodup := by
    refine List.Nodup.map_on (fun x hx y hy hxy => ?_) List.nodup_range
    rw [List.mem_range] at hx hy
    exact slotAfter_injOn hd hi (by omega) (by omega) hxy
  have hsub : (List.range m).map (slotAfter (displacement (hashOf e c)) (hashOf e c)) ⊆ (liveEntries t).map Prod.fst := by
    intro x hx
    obtain ⟨l, hl, rfl⟩ := List.mem_map.1 hx
    obtain ⟨en, hr, hv, -⟩ := lookSlot_eq_other (h l (List.mem_range.1 hl))
    exact List.mem_map.2 ⟨_, mem_liveEntries.2 ⟨mem_of_read hr, hv⟩, rfl⟩
  have := (List.subperm_of_subset hnd hsub).length_le
  simpa using this

/-- A table with an empty slot is searched to an end, in at most one read more than it has valid entries (R106). -/
theorem probeTable_terminates {t : List (Nat × HtEntry)} (e : BitVec 12) (c : BitVec 8)
    (h : (liveEntries t).length < Config.hsize) : ∃ b j, probeTable t e c = .ok (b, j) := by
  cases hp : probeTable t e c with
  | ok r => exact ⟨r.1, r.2, rfl⟩
  | error r =>
    rw [probeTable_eq_walk, walk_error_iff] at hp
    exact absurd (passed_le_live le_rfl hp.2) (by omega)

/-- Insert at an empty slot adds one valid entry and takes none away (R103). -/
theorem liveEntries_write {t : List (Nat × HtEntry)} {i : Nat} {en : HtEntry} (hv : en.valid = true)
    (h : ∀ e, Memory.read t i = some e → e.valid = false) :
    (liveEntries (Memory.write t i en)).Perm ((i, en) :: liveEntries t) := by
  induction t with
  | nil => simp [Memory.write, liveEntries, hv]
  | cons x rest ih =>
    obtain ⟨b, u⟩ := x
    simp only [Memory.write]
    split_ifs with h1 h2
    · simp [liveEntries, hv]
    · subst h2
      have hu := h u (by simp [Memory.read])
      simp [liveEntries, hv, hu]
    · have hr := ih fun e he => h e (by simp [Memory.read, h2, he])
      by_cases hu : u.valid
      · simp only [liveEntries, List.filter_cons, hu, if_true]
        exact (List.Perm.cons _ hr).trans (List.Perm.swap _ _ _)
      · simpa [liveEntries, hu] using hr

@[simp] theorem liveEntries_clear (t : List (Nat × HtEntry)) : liveEntries (t.map invalidate) = [] := by
  simp only [liveEntries, List.filter_eq_nil_iff, List.mem_map]
  rintro x ⟨y, -, rfl⟩
  simp [invalidate]

theorem read_clear (t : List (Nat × HtEntry)) (i : Nat) :
    Memory.read (t.map invalidate) i = (Memory.read t i).map fun e => { e with valid := false } := by
  induction t with
  | nil => rfl
  | cons x rest ih => obtain ⟨b, u⟩ := x; simp only [List.map_cons, invalidate, Memory.read]; split_ifs <;> simp_all

/-- After ClearTable every search misses at its first slot (R104). -/
theorem probeTable_of_noLive {t : List (Nat × HtEntry)} (h : liveEntries t = []) (e : BitVec 12) (c : BitVec 8) :
    probeTable t e c = .ok (false, hashOf e c) := by
  have : lookSlot t (keyOf e c) (hashOf e c) = .empty := lookSlot_eq_empty_iff.2 fun en hr => by
    by_contra hv
    have : (hashOf e c, en) ∈ liveEntries t := mem_liveEntries.2 ⟨mem_of_read hr, by simpa using hv⟩
    rw [h] at this; cases this
  simp [probeTable, this]

theorem lookSlot_write_other {t : List (Nat × HtEntry)} {i j : Nat} {en : HtEntry} {k : BitVec 20} (h : j ≠ i) :
    lookSlot (Memory.write t i en) k j = lookSlot t k j := by
  simp only [lookSlot, Memory.read_write_other t en h]

theorem lookSlot_empty_any {t : List (Nat × HtEntry)} {i : Nat} {k k' : BitVec 20} (h : lookSlot t k i = .empty) :
    lookSlot t k' i = .empty := lookSlot_eq_empty_iff.2 (lookSlot_eq_empty_iff.1 h)

/-- A search that found its key still finds it after another pair is entered at an empty slot (R105). -/
theorem probeTable_write_old {t : List (Nat × HtEntry)} {i j : Nat} {en : HtEntry} {e : BitVec 12} {c : BitVec 8}
    {k : BitVec 20} (hi : lookSlot t k i = .empty) (h : probeTable t e c = .ok (true, j)) :
    probeTable (Memory.write t i en) e c = .ok (true, j) := by
  obtain ⟨m, hm, rfl, hj, ho⟩ := (probeTable_ok_iff t e c true j).1 h
  have hne : ∀ x, lookSlot t (keyOf e c) x ≠ .empty → x ≠ i := fun x hx he => by
    subst he; exact hx (lookSlot_empty_any hi)
  refine (probeTable_ok_iff _ e c true _).2 ⟨m, hm, rfl, ?_, fun l hl => ?_⟩
  · rw [lookSlot_write_other (hne _ (by rw [hj]; simp [endLook])), hj]
  · rw [lookSlot_write_other (hne _ (by rw [ho l hl]; simp)), ho l hl]

/-- A search that missed finds its key after its own pair is entered where it ended (R103). -/
theorem probeTable_write_new {t : List (Nat × HtEntry)} {i : Nat} {e : BitVec 12} {c : BitVec 8} {v : BitVec 12}
    (h : probeTable t e c = .ok (false, i)) :
    probeTable (Memory.write t i { valid := true, key := keyOf e c, code := v }) e c = .ok (true, i) := by
  obtain ⟨m, hm, hmi, hj, ho⟩ := (probeTable_ok_iff t e c false i).1 h
  refine (probeTable_ok_iff _ e c true _).2 ⟨m, hm, hmi, ?_, fun l hl => ?_⟩
  · simp [lookSlot, Memory.read_write_same, endLook]
  · rw [lookSlot_write_other, ho l hl]
    intro he
    have := ho l hl
    rw [he, hj] at this; simp [endLook] at this

/-- Where a search missed, the slot is empty. -/
theorem probeTable_miss_empty {t : List (Nat × HtEntry)} {i : Nat} {e : BitVec 12} {c : BitVec 8}
    (h : probeTable t e c = .ok (false, i)) : lookSlot t (keyOf e c) i = .empty := by
  obtain ⟨m, -, -, hj, -⟩ := (probeTable_ok_iff t e c false i).1 h
  simpa [endLook] using hj

/-- Where a search hit, the slot holds the key. -/
theorem probeTable_hit_entry {t : List (Nat × HtEntry)} {i : Nat} {e : BitVec 12} {c : BitVec 8}
    (h : probeTable t e c = .ok (true, i)) :
    ∃ en, Memory.read t i = some en ∧ (i, en) ∈ liveEntries t ∧ en.key = keyOf e c := by
  obtain ⟨m, -, -, hj, -⟩ := (probeTable_ok_iff t e c true i).1 h
  obtain ⟨en, hr, hv, hk⟩ := lookSlot_eq_hit (show lookSlot t (keyOf e c) i = .hit by simpa [endLook] using hj)
  exact ⟨en, hr, mem_liveEntries.2 ⟨mem_of_read hr, hv⟩, hk⟩

end Sys2Proof.Machine
end

