-- ==== Sys2Proof/Laws/Frames.lean ====
section
/-! SUPPORT. What the shared operations leave unchanged, in every state: the emission side of the block on one hand, the
commands on the other. -/

namespace Sys2Proof.Machine

/-- Only the emission side changes from `s` to `t`, and `OUT` at most grows. -/
structure StreamFrame (s t : State) : Prop where
  frame : t = { s with
    acc := t.acc, curBits := t.curBits, buf := t.buf, bufCnt := t.bufCnt, out := t.out, nBits := t.nBits,
    clearFlag := t.clearFlag }
  grows : s.out <+: t.out

theorem StreamFrame.refl (s : State) : StreamFrame s s := ⟨rfl, List.prefix_rfl⟩

theorem StreamFrame.trans {s t u : State} (h : StreamFrame s t) (g : StreamFrame t u) : StreamFrame s u :=
  ⟨by rw [g.frame, h.frame], h.grows.trans g.grows⟩

section
variable {s t : State} (h : StreamFrame s t)
include h
theorem StreamFrame.phase : t.phase = s.phase := by rw [h.frame]
theorem StreamFrame.faultCode : t.faultCode = s.faultCode := by rw [h.frame]
theorem StreamFrame.bpp : t.bpp = s.bpp := by rw [h.frame]
theorem StreamFrame.ent : t.ent = s.ent := by rw [h.frame]
theorem StreamFrame.entValid : t.entValid = s.entValid := by rw [h.frame]
theorem StreamFrame.freeEnt : t.freeEnt = s.freeEnt := by rw [h.frame]
theorem StreamFrame.ht : t.ht = s.ht := by rw [h.frame]
theorem StreamFrame.inputs : t.inputs = s.inputs := by rw [h.frame]
theorem StreamFrame.freeCount : t.freeCount = s.freeCount := by rw [h.frame]
end

theorem except_map_ok {α β : Type} {x : Except Fault α} {f : α → β} {b : β} :
    x.map f = .ok b ↔ ∃ a, x = .ok a ∧ f a = b := by cases x <;> simp [Except.map]

theorem except_bind_ok {α β : Type} {x : Except Fault α} {f : α → Except Fault β} {b : β} :
    x.bind f = .ok b ↔ ∃ a, x = .ok a ∧ f a = .ok b := by cases x <;> simp [Except.bind]

theorem toOutcome_next {x : Except Fault State} {t : State} : toOutcome x = .next t ↔ x = .ok t := by
  cases x <;> simp [toOutcome]

theorem whenAccepting_next {s t : State} {k : Result} :
    whenAccepting s k = .next t ↔ s.phase ≠ .fault ∧ k = .next t := by
  unfold whenAccepting; split_ifs with h <;> simp [h]

theorem flushBlock_frame {s t : State} (h : flushBlock s = .ok t) : StreamFrame s t := by
  unfold flushBlock at h
  split_ifs at h with h0
  · cases h; exact .refl _
  · split at h
    · cases h; exact ⟨rfl, List.prefix_append _ _⟩
    · cases h

theorem byteOut_frame {s t : State} {b : Byte} (h : byteOut b s = .ok t) : StreamFrame s t := by
  unfold byteOut at h
  dsimp only at h
  split_ifs at h with h0 h1
  · exact StreamFrame.trans (t := storeByte b s) ⟨rfl, List.prefix_rfl⟩ (flushBlock_frame h)
  · cases h; exact ⟨rfl, List.prefix_rfl⟩

theorem drainBytes_frame {n : Nat} {s t : State} (h : drainBytes n s = .ok t) : StreamFrame s t := by
  induction n generalizing s with
  | zero => cases h; exact .refl _
  | succ n ih =>
    simp only [drainBytes] at h
    split_ifs at h with h8
    · obtain ⟨u, hu, ht⟩ := except_bind_ok.1 h
      exact (byteOut_frame hu).trans (StreamFrame.trans (t := dropByte u) ⟨rfl, List.prefix_rfl⟩ (ih ht))
    · cases h; exact .refl _

theorem widthUpdate_frame (s : State) : StreamFrame s (widthUpdate s) := by
  unfold widthUpdate; split_ifs <;> exact ⟨rfl, List.prefix_rfl⟩

theorem emitCode_frame {k : BitVec 12} {s t : State} (h : emitCode k s = .ok t) : StreamFrame s t := by
  obtain ⟨u, hu, rfl⟩ := except_map_ok.1 h
  have h0 : StreamFrame s (appendCode k s) := ⟨rfl, List.prefix_rfl⟩
  exact h0.trans ((drainBytes_frame hu).trans (widthUpdate_frame u))

theorem flushAcc_frame {s t : State} (h : flushAcc s = .ok t) : StreamFrame s t := by
  unfold flushAcc at h
  split_ifs at h
  · cases h; exact .refl _
  · obtain ⟨u, hu, rfl⟩ := except_map_ok.1 h
    exact (byteOut_frame hu).trans ⟨rfl, List.prefix_rfl⟩

/-! What each command's own effect leaves unchanged -/

theorem startFrame_frame {b : BitVec 4} {s t : State} (h : startFrame b s = .ok t) :
    StreamFrame (beginFrame b s) t := emitCode_frame h

theorem restartTable_frame {s t : State} (h : restartTable s = .ok t) :
    StreamFrame { s with ht := some ((s.ht.getD []).map invalidate), freeEnt := BitVec.ofNat 13 (firstCode s.bpp) } t := by
  have h1 := emitCode_frame h
  exact ⟨h1.frame, h1.grows⟩

/-- A completed SYM changes the emission side, the prefix and its flag, `free_ent` and the table; `OUT` at most grows. -/
theorem consumeSymbol_frame {c : BitVec 8} {s t : State} (h : consumeSymbol c s = .ok t) :
    StreamFrame { s with ent := t.ent, entValid := true, freeEnt := t.freeEnt, ht := t.ht } t := by
  unfold consumeSymbol at h
  split_ifs at h with hv
  · cases h; exact ⟨rfl, List.prefix_rfl⟩
  · have hv' : s.entValid = true := by simpa using hv
    obtain ⟨⟨hit, i⟩, -, h⟩ := except_bind_ok.1 h
    dsimp only at h
    split_ifs at h with hh
    · obtain ⟨code, -, rfl⟩ := except_map_ok.1 h
      exact ⟨by rw [← hv'], List.prefix_rfl⟩
    · obtain ⟨u, hu, h⟩ := except_bind_ok.1 h
      obtain ⟨v, hv, rfl⟩ := except_map_ok.1 h
      have f1 := emitCode_frame hu
      split_ifs at hv with hf
      · cases hv
        refine ⟨?_, f1.grows⟩
        simp only [restartPrefix, enterString, insertEntry]
        rw [← hv', f1.frame]
      · have f2 := restartTable_frame hv
        refine ⟨?_, f1.grows.trans f2.grows⟩
        simp only [restartPrefix]
        rw [← hv', f2.frame]
        simp only
        rw [f1.frame]

/-- A completed END changes the emission side, the flag and the phase; `OUT` at most grows. -/
theorem finishFrame_frame {s t : State} (h : finishFrame s = .ok t) :
    StreamFrame { s with entValid := false, phase := .done } t := by
  obtain ⟨s₁, h1, h⟩ := except_bind_ok.1 h
  obtain ⟨s₂, h2, h⟩ := except_bind_ok.1 h
  obtain ⟨s₃, h3, h⟩ := except_bind_ok.1 h
  obtain ⟨s₄, h4, rfl⟩ := except_map_ok.1 h
  have f := (emitCode_frame h1).trans ((emitCode_frame h2).trans ((flushAcc_frame h3).trans (flushBlock_frame h4)))
  refine ⟨?_, f.grows.trans (List.prefix_append _ _)⟩
  simp only [closeFrame, terminate, outBytes]
  rw [f.frame]

/-! What a command can answer -/

/-- Every next state of a command is a fault entry or its own effect (R80 to R82, R62). -/
theorem exec_cases {i : Instr} {s t : State} (h : exec i s = .next t) :
    s.phase ≠ .fault ∧
      ((∃ code, t = takeFault code s ∧
          (code = .illegalCommand ∧ (i.wellFormed = false ∨ ∃ a, i = .reserved a) ∨
            code = .protocol ∧ (∃ a, i = .start a) ∧ s.phase = .run ∨
            code = .protocol ∧ ((∃ c, i = .sym c) ∨ ∃ a, i = .endFrame a) ∧ s.phase ≠ .run ∨
            code = .illegalConfig ∧ (∃ a, i = .start a ∧ legalBpp (bppField a) = false) ∨
            code = .symbolRange ∧ s.phase = .run ∧ (∃ c, i = .sym c ∧ symbolInRange s.bpp c = false) ∨
            code = .emptyInput ∧ s.phase = .run ∧ (∃ a, i = .endFrame a) ∧ s.entValid = false)) ∨
        (∃ a, i = .start a ∧ s.phase ≠ .run ∧ startBitsClear a = true ∧ legalBpp (bppField a) = true ∧
          startFrame (bppField a) s = .ok t) ∨
        (∃ c, i = .sym c ∧ s.phase = .run ∧ symbolInRange s.bpp c = true ∧ consumeSymbol c s = .ok t) ∨
        (i = .endFrame 0#8 ∧ s.phase = .run ∧ s.entValid = true ∧ finishFrame s = .ok t)) := by
  cases i with
  | start a =>
    obtain ⟨hp, h⟩ := whenAccepting_next.1 h
    refine ⟨hp, ?_⟩
    split_ifs at h with h1 h2 h3
    · cases h; exact .inl ⟨_, rfl, .inl ⟨rfl, .inl (by simpa [Instr.wellFormed] using h1)⟩⟩
    · cases h; exact .inl ⟨_, rfl, .inr (.inl ⟨rfl, ⟨_, rfl⟩, h2⟩)⟩
    · cases h; exact .inl ⟨_, rfl, .inr (.inr (.inr (.inl ⟨rfl, _, rfl, h3⟩)))⟩
    · exact .inr (.inl ⟨a, rfl, h2, by simpa using h1, by simpa using h3, toOutcome_next.1 h⟩)
  | sym c =>
    obtain ⟨hp, h⟩ := whenAccepting_next.1 h
    refine ⟨hp, ?_⟩
    split_ifs at h with h1 h2
    · cases h; exact .inl ⟨_, rfl, .inr (.inr (.inl ⟨rfl, .inl ⟨_, rfl⟩, h1⟩))⟩
    · cases h; exact .inl ⟨_, rfl, .inr (.inr (.inr (.inr (.inl ⟨rfl, not_not.1 h1, _, rfl, h2⟩))))⟩
    · exact .inr (.inr (.inl ⟨c, rfl, not_not.1 h1, by simpa using h2, toOutcome_next.1 h⟩))
  | endFrame a =>
    obtain ⟨hp, h⟩ := whenAccepting_next.1 h
    refine ⟨hp, ?_⟩
    split_ifs at h with h1 h2 h3
    · cases h; exact .inl ⟨_, rfl, .inl ⟨rfl, .inl (by simpa [Instr.wellFormed] using h1)⟩⟩
    · cases h; exact .inl ⟨_, rfl, .inr (.inr (.inl ⟨rfl, .inr ⟨_, rfl⟩, h2⟩))⟩
    · cases h; exact .inl ⟨_, rfl, .inr (.inr (.inr (.inr (.inr ⟨rfl, not_not.1 h2, ⟨_, rfl⟩, h3⟩))))⟩
    · have ha : a = 0#8 := by simpa [endBitsClear] using h1
      exact .inr (.inr (.inr ⟨by rw [ha], not_not.1 h2, by simpa using h3, toOutcome_next.1 h⟩))
  | reserved a =>
    obtain ⟨hp, h⟩ := whenAccepting_next.1 h
    cases h
    exact ⟨hp, .inl ⟨_, rfl, .inl ⟨rfl, .inr ⟨_, rfl⟩⟩⟩⟩

end Sys2Proof.Machine
end

