-- ==== Sys2Proof/Laws/Commands.lean ====
section
/-! SUPPORT. The invariant of the string table, and the emission of two codes in a row. -/

namespace Sys2Proof.Machine

/-! Facts of a legal `bpp` -/

theorem legalBpp_cases {b : BitVec 4} (h : legalBpp b = true) : b = 1#4 ∨ b = 2#4 ∨ b = 4#4 ∨ b = 8#4 := by
  simpa [legalBpp, or_assoc] using h

/-- The sizes of the code space of a legal `bpp` (00_scope.md R5). -/
theorem legalBpp_bounds {b : BitVec 4} (h : legalBpp b = true) :
    2 ≤ ics b ∧ ics b ≤ 8 ∧ 4 ≤ clearCode b ∧ clearCode b ≤ 256 ∧ 2 ^ b.toNat ≤ clearCode b ∧
      2 ^ (ics b + 1) = 2 * clearCode b := by
  rcases legalBpp_cases h with rfl | rfl | rfl | rfl <;> decide

theorem firstCode_eq (b : BitVec 4) : firstCode b = clearCode b + 2 := rfl

theorem eofCode_eq (b : BitVec 4) : eofCode b = clearCode b + 1 := rfl

theorem two_pow_width_ge {b : BitVec 4} (h : legalBpp b = true) {n : Nat} (hn : ics b + 1 ≤ n) :
    2 * clearCode b ≤ 2 ^ n := by
  rw [← (legalBpp_bounds h).2.2.2.2.2]; exact Nat.pow_le_pow_right (by norm_num) hn

/-- `CLEAR` and `EOFC` fit every width of the frame (42_code_emit.md R110). -/
theorem reservedCodes_fit {b : BitVec 4} (h : legalBpp b = true) {n : Nat} (hn : ics b + 1 ≤ n) :
    (BitVec.ofNat 12 (clearCode b)).toNat = clearCode b ∧ (BitVec.ofNat 12 (eofCode b)).toNat = eofCode b ∧
      clearCode b < 2 ^ n ∧ eofCode b < 2 ^ n := by
  have h1 := legalBpp_bounds h
  have h2 := two_pow_width_ge h hn
  simp only [BitVec.toNat_ofNat, eofCode_eq]
  omega

theorem firstCode_toNat {b : BitVec 4} (h : legalBpp b = true) :
    (BitVec.ofNat 13 (firstCode b)).toNat = firstCode b := by
  have h1 := legalBpp_bounds h
  simp only [BitVec.toNat_ofNat, firstCode_eq]; omega

theorem initialWidth_toNat {b : BitVec 4} (h : legalBpp b = true) :
    (BitVec.ofNat 4 (ics b + 1)).toNat = ics b + 1 := by
  have h1 := legalBpp_bounds h
  simp only [BitVec.toNat_ofNat]; omega

theorem widen_bounds {free w : Nat} (hw : w ≤ Config.maxBits) : w ≤ widen free w ∧ widen free w ≤ Config.maxBits := by
  unfold widen; simp only [Config.maxBits] at *; split_ifs <;> omega

/-- The width rule keeps room for the code about to be assigned (10_state.md R24 item 4; 42_code_emit.md R112). -/
theorem widen_fits {free w : Nat} (h : free ≤ 2 ^ w) (hf : free < Config.maxMaxCode) :
    free + 1 ≤ 2 ^ widen free w := by
  have hp : 0 < 2 ^ w := by positivity
  unfold widen; simp only [Config.maxBits, Config.maxMaxCode] at *
  split_ifs with hg
  · rw [pow_succ]; omega
  · by_cases h12 : w < 12
    · have : ¬ 2 ^ w - 1 < free := fun h' => hg ⟨h', h12⟩
      omega
    · have : 2 ^ 12 ≤ 2 ^ w := Nat.pow_le_pow_right (by norm_num) (by omega)
      omega

/-! Two codes in a row -/

/-- The bytes of two codes are those of their bits together. -/
theorem bytesOf_two (v k b w : Nat) :
    bytesOf v (b / 8) ++ bytesOf (v / 256 ^ (b / 8) + k * 2 ^ (b % 8)) ((b % 8 + w) / 8) =
      bytesOf (v + k * 2 ^ b) ((b + w) / 8) := by
  have hb : 2 ^ b = 256 ^ (b / 8) * 2 ^ (b % 8) := by
    conv_lhs => rw [← Nat.div_add_mod b 8, pow_add, pow_mul]
    rfl
  have hq : (b + w) / 8 = b / 8 + (b % 8 + w) / 8 := by omega
  have hpos : 0 < 256 ^ (b / 8) := by positivity
  rw [hq, bytesOf_append]
  congr 1
  · rw [← bytesOf_mod (v + k * 2 ^ b) _ _ le_rfl, hb,
      show v + k * (256 ^ (b / 8) * 2 ^ (b % 8)) = v + 256 ^ (b / 8) * (k * 2 ^ (b % 8)) by ring,
      Nat.add_mul_mod_self_left, bytesOf_mod _ _ _ le_rfl]
  · congr 1
    rw [hb, show v + k * (256 ^ (b / 8) * 2 ^ (b % 8)) = v + 256 ^ (b / 8) * (k * 2 ^ (b % 8)) by ring,
      Nat.add_mul_div_left _ _ hpos]

/-- What is left of two codes is what is left of their bits together. -/
theorem rest_two (v k b w : Nat) :
    (v / 256 ^ (b / 8) + k * 2 ^ (b % 8)) / 256 ^ ((b % 8 + w) / 8) = (v + k * 2 ^ b) / 256 ^ ((b + w) / 8) := by
  have hb : 2 ^ b = 256 ^ (b / 8) * 2 ^ (b % 8) := by
    conv_lhs => rw [← Nat.div_add_mod b 8, pow_add, pow_mul]
    rfl
  have hq : (b + w) / 8 = b / 8 + (b % 8 + w) / 8 := by omega
  have hpos : 0 < 256 ^ (b / 8) := by positivity
  rw [hq, pow_add, ← Nat.div_div_eq_div_mul, hb,
    show v + k * (256 ^ (b / 8) * 2 ^ (b % 8)) = v + 256 ^ (b / 8) * (k * 2 ^ (b % 8)) by ring,
    Nat.add_mul_div_left _ _ hpos]

/-! The invariant of the string table -/

theorem tableInv_empty {b : BitVec 4} {t : List (Nat × HtEntry)} (h : liveEntries t = []) :
    TableInv b (firstCode b) t := by
  constructor <;> simp [h]

theorem tableInv_live_lt {b : BitVec 4} {free : Nat} {t : List (Nat × HtEntry)} (hb : legalBpp b = true)
    (hf : free ≤ Config.maxMaxCode) (h : TableInv b free t) : (liveEntries t).length ≤ 4090 := by
  have h1 := legalBpp_bounds hb
  have := h.count
  simp only [firstCode_eq, Config.maxMaxCode] at *
  omega

/-- Entering a missed pair under the next code keeps the invariant of the table (R103, R105). -/
theorem tableInv_insert {b : BitVec 4} {t : List (Nat × HtEntry)} {e : BitVec 12} {c : BitVec 8} {v : BitVec 12}
    {i : Nat} (h : TableInv b v.toNat t) (hf : firstCode b ≤ v.toNat) (he : legalPrefix b v.toNat e.toNat)
    (hc : c.toNat < 2 ^ b.toNat) (hp : probeTable t e c = .ok (false, i)) :
    TableInv b (v.toNat + 1) (Memory.write t i { valid := true, key := keyOf e c, code := v }) := by
  have hempty := probeTable_miss_empty hp
  have hperm := liveEntries_write (t := t) (i := i) (en := { valid := true, key := keyOf e c, code := v }) rfl
    (lookSlot_eq_empty_iff.1 hempty)
  have hmem : ∀ x, x ∈ liveEntries (Memory.write t i { valid := true, key := keyOf e c, code := v }) ↔
      x = (i, { valid := true, key := keyOf e c, code := v }) ∨ x ∈ liveEntries t := fun x => by
    rw [hperm.mem_iff, List.mem_cons]
  constructor
  · rw [hperm.length_eq, List.length_cons, h.count]; omega
  · intro w
    constructor
    · rintro ⟨x, hx, rfl⟩
      rcases (hmem x).1 hx with rfl | hx
      · exact ⟨hf, Nat.lt_succ_self _⟩
      · obtain ⟨h1, h2⟩ := (h.codes _).1 ⟨x, hx, rfl⟩
        exact ⟨h1, by omega⟩
    · rintro ⟨h1, h2⟩
      rcases Nat.lt_succ_iff_lt_or_eq.1 h2 with h2 | rfl
      · obtain ⟨x, hx, hxv⟩ := (h.codes w).2 ⟨h1, h2⟩
        exact ⟨x, (hmem x).2 (.inr hx), hxv⟩
      · exact ⟨_, (hmem _).2 (.inl rfl), rfl⟩
  · rw [(hperm.map _).nodup_iff, List.map_cons, List.nodup_cons]
    refine ⟨fun hm => ?_, h.codesDiffer⟩
    obtain ⟨x, hx, hxv⟩ := List.mem_map.1 hm
    have := (h.codes v.toNat).1 ⟨x, hx, by rw [hxv]⟩
    omega
  · rw [(hperm.map _).nodup_iff, List.map_cons, List.nodup_cons]
    refine ⟨fun hm => ?_, h.keysDiffer⟩
    obtain ⟨x, hx, hxk⟩ := List.mem_map.1 hm
    have hr := h.reachable x hx
    simp only at hxk
    rw [hxk, keyPrefix_keyOf, keySymbol_keyOf, hp] at hr
    cases hr
  · intro x hx
    rcases (hmem x).1 hx with rfl | hx
    · simpa using he
    · exact h.prefixes x hx
  · intro x hx
    rcases (hmem x).1 hx with rfl | hx
    · simpa using hc
    · exact h.symbols x hx
  · intro x hx
    rcases (hmem x).1 hx with rfl | hx
    · simpa using probeTable_write_new hp
    · exact probeTable_write_old hempty (h.reachable x hx)

/-- What Probe answers over a table of the invariant: the code of the pair if it is there, an empty slot if not (R105). -/
theorem probeTable_of_inv {b : BitVec 4} {free : Nat} {t : List (Nat × HtEntry)} (hb : legalBpp b = true)
    (hf : free ≤ Config.maxMaxCode) (h : TableInv b free t) (e : BitVec 12) (c : BitVec 8) :
    (∃ i en, probeTable t e c = .ok (true, i) ∧ Memory.read t i = some en ∧ (i, en) ∈ liveEntries t ∧
      en.key = keyOf e c) ∨
    (∃ i, probeTable t e c = .ok (false, i) ∧ ∀ x ∈ liveEntries t, x.2.key ≠ keyOf e c) := by
  have hl := tableInv_live_lt hb hf h
  obtain ⟨hit, i, hp⟩ := probeTable_terminates e c (t := t) (by simp only [Config.hsize]; omega)
  cases hit with
  | true =>
    obtain ⟨en, hr, hm, hk⟩ := probeTable_hit_entry hp
    exact .inl ⟨i, en, hp, hr, hm, hk⟩
  | false =>
    refine .inr ⟨i, hp, fun x hx hk => ?_⟩
    have hr := h.reachable x hx
    rw [hk, keyPrefix_keyOf, keySymbol_keyOf, hp] at hr
    cases hr

end Sys2Proof.Machine
end

