-- ==== Sys2Proof/Laws/CommandSpecs.lean ====
section
/-! SUPPORT. What the parts of START, SYM and END do when they complete: the bytes, the bits left waiting, the width, and
the frame. -/

namespace Sys2Proof.Machine

theorem streamInv_beginFrame (b : BitVec 4) (s : State) : StreamInv (beginFrame b s) := by
  refine ⟨⟨Nat.zero_le _, fun j hj => ?_⟩, Nat.zero_le _, Nat.one_pos⟩
  exact absurd (show j < 0 from hj) (Nat.not_lt_zero j)

theorem emitValue_beginFrame (b : BitVec 4) (s : State) (k : Nat) : emitValue (beginFrame b s) k = k := by
  simp [emitValue]

theorem emitBits_beginFrame {b : BitVec 4} (s : State) (hb : legalBpp b = true) :
    emitBits (beginFrame b s) = ics b + 1 := by
  simp [emitBits, initialWidth_toNat hb, -BitVec.toNat_ofNat]

/-- START's own effect (R80). -/
theorem startFrame_spec (s : State) {b : BitVec 4} (hb : legalBpp b = true) :
    ∃ t, startFrame b s = .ok t ∧ Streamed (bytesOf (clearCode b) ((ics b + 1) / 8)) (beginFrame b s) t ∧
      t.acc.toNat = clearCode b / 256 ^ ((ics b + 1) / 8) ∧ t.curBits.toNat = (ics b + 1) % 8 ∧ StreamInv t ∧
      t.nBits.toNat = ics b + 1 ∧ t.clearFlag = false ∧ StreamFrame (beginFrame b s) t := by
  obtain ⟨h1, -, h2, -⟩ := reservedCodes_fit hb le_rfl
  have hn : (beginFrame b s).nBits.toNat = ics b + 1 := initialWidth_toNat hb
  have hi := legalBpp_bounds hb
  have hm : (beginFrame b s).nBits.toNat ≤ Config.maxBits := by rw [hn]; simp only [Config.maxBits]; omega
  obtain ⟨t, ht, hst, ha, hc, hinv, hnb, hfr⟩ :=
    emitCode_spec (k := BitVec.ofNat 12 (clearCode b)) (streamInv_beginFrame b s) (by rw [h1, hn]; exact h2) hm
  rw [h1, emitValue_beginFrame, emitBits_beginFrame s hb] at hst ha
  rw [emitBits_beginFrame s hb] at hc
  refine ⟨t, ht, hst, ha, hc, hinv, ?_, by rw [hfr], emitCode_frame ht⟩
  rw [hnb, widthUpdate_nBits_toNat hb hm, if_neg (by simp), hn, beginFrame_freeEnt, firstCode_toNat hb]
  unfold widen
  rw [if_neg]
  have := hi.2.2.2.2.2
  simp only [firstCode_eq]
  omega

/-- The emission of the prefix by SYM and END (R81, R82). -/
theorem emitPrefix_spec {s : State} (h : EmitReady s) :
    ∃ t, emitCode s.ent s = .ok t ∧ Streamed (bytesOf (emitValue s s.ent.toNat) (emitBits s / 8)) s t ∧
      t.acc.toNat = emitValue s s.ent.toNat / 256 ^ (emitBits s / 8) ∧ t.curBits.toNat = emitBits s % 8 ∧
      StreamInv t ∧ t.nBits.toNat = nextWidth s ∧ t.clearFlag = false ∧ StreamFrame s t := by
  obtain ⟨t, h1, h2, h3, h4, h5, h6, h7⟩ := emitCode_spec h.stream h.ent h.width.2
  refine ⟨t, h1, h2, h3, h4, h5, ?_, by rw [h7], emitCode_frame h1⟩
  rw [h6, widthUpdate_nBits_toNat h.bpp h.width.2, h.clearFlag]; simp [nextWidth]

/-- The clear of a full table by SYM (R81). -/
theorem restartTable_spec {s : State} (hs : StreamInv s) (hb : legalBpp s.bpp = true) (hw : ics s.bpp + 1 ≤ s.nBits.toNat)
    (hm : s.nBits.toNat ≤ Config.maxBits) :
    ∃ t, restartTable s = .ok t ∧ Streamed (bytesOf (emitValue s (clearCode s.bpp)) (emitBits s / 8)) s t ∧
      t.acc.toNat = emitValue s (clearCode s.bpp) / 256 ^ (emitBits s / 8) ∧ t.curBits.toNat = emitBits s % 8 ∧
      StreamInv t ∧ t.nBits.toNat = ics s.bpp + 1 ∧ t.clearFlag = false ∧
      StreamFrame { s with ht := some ((s.ht.getD []).map invalidate), freeEnt := BitVec.ofNat 13 (firstCode s.bpp) }
        t := by
  obtain ⟨c1, -, c2, -⟩ := reservedCodes_fit hb hw
  obtain ⟨t, h1, h2, h3, h4, h5, h6, h7⟩ :=
    emitCode_spec (s := markClear { clearTable s with freeEnt := BitVec.ofNat 13 (firstCode s.bpp) })
      (k := BitVec.ofNat 12 (clearCode s.bpp)) ⟨⟨hs.bufCnt, hs.held⟩, hs.curBits, hs.acc⟩ (by rw [c1]; exact c2) hm
  rw [c1] at h2 h3
  refine ⟨t, h1, h2.congr rfl rfl, h3, h4, h5, ?_, by rw [h7], restartTable_frame h1⟩
  rw [h6]
  exact widthUpdate_nBits_toNat (s := markClear { clearTable s with freeEnt := BitVec.ofNat 13 (firstCode s.bpp) }) hb hm

/-- The prefix and `CLEAR` in a row, on a miss with a full table (R81). -/
theorem emitThenRestart_spec {s : State} (h : EmitReady s) :
    ∃ u t, emitCode s.ent s = .ok u ∧ restartTable u = .ok t ∧
      Streamed
        (bytesOf (emitValue s s.ent.toNat + clearCode s.bpp * 2 ^ emitBits s) ((emitBits s + nextWidth s) / 8)) s t ∧
      t.acc.toNat =
        (emitValue s s.ent.toNat + clearCode s.bpp * 2 ^ emitBits s) / 256 ^ ((emitBits s + nextWidth s) / 8) ∧
      t.curBits.toNat = (emitBits s + nextWidth s) % 8 ∧ StreamInv t ∧ t.nBits.toNat = ics s.bpp + 1 ∧
      t.clearFlag = false ∧
      StreamFrame { s with ht := some ((s.ht.getD []).map invalidate), freeEnt := BitVec.ofNat 13 (firstCode s.bpp) }
        t := by
  obtain ⟨u, h1, h2, h3, h4, h5, h6, -, h7⟩ := emitPrefix_spec h
  have hwb := widen_bounds (free := s.freeEnt.toNat) h.width.2
  obtain ⟨t, g1, g2, g3, g4, g5, g6, g8, g7⟩ := restartTable_spec h5 (by rw [h7.bpp]; exact h.bpp)
    (by rw [h6, h7.bpp]; exact h.width.1.trans hwb.1) (by rw [h6]; exact hwb.2)
  rw [h7.bpp] at g2 g3 g6 g7
  have hv2 : emitValue u (clearCode s.bpp) =
      emitValue s s.ent.toNat / 256 ^ (emitBits s / 8) + clearCode s.bpp * 2 ^ (emitBits s % 8) := by
    simp only [emitValue, h3, h4]
  have hb2 : emitBits u = emitBits s % 8 + nextWidth s := by rw [emitBits, h4, h6]
  rw [hv2, hb2] at g2 g3
  rw [hb2] at g4
  have hst := h2.trans g2
  rw [bytesOf_two] at hst
  rw [rest_two] at g3
  refine ⟨u, t, h1, g1, hst, g3, by omega, g5, g6, g8, ?_⟩
  rw [h7.ht] at g7
  refine StreamFrame.trans ?_ g7
  have := h7.frame
  refine ⟨?_, h7.grows⟩
  rw [this]

/-- END's own effect (R82). -/
theorem finishFrame_spec {s : State} (h : EmitReady s) :
    ∃ u t, Streamed (bytesOf (endValue s) (endBytes s)) s u ∧ finishFrame s = .ok t ∧
      t.out = closeStream (streamOf u) ∧ t.buf = u.buf ∧ t.acc = 0#32 ∧ t.curBits = 0#5 ∧ t.bufCnt = 0#8 ∧
      t.nBits.toNat = widen s.freeEnt.toNat (nextWidth s) ∧ t.clearFlag = false ∧
      StreamFrame { s with entValid := false, phase := .done } t := by
  obtain ⟨s₁, h1, h2, h3, h4, h5, h6, h8, h7⟩ := emitPrefix_spec h
  have hwb := widen_bounds (free := s.freeEnt.toNat) h.width.2
  have hlo : ics s.bpp + 1 ≤ s₁.nBits.toNat := by rw [h6]; exact h.width.1.trans hwb.1
  have hhi : s₁.nBits.toNat ≤ Config.maxBits := by rw [h6]; exact hwb.2
  obtain ⟨-, c1, -, c2⟩ := reservedCodes_fit h.bpp hlo
  obtain ⟨s₂, g1, g2, g3, g4, g5, g6, g7⟩ :=
    emitCode_spec (k := BitVec.ofNat 12 (eofCode s.bpp)) h5 (by rw [c1]; exact c2) hhi
  have hv2 : emitValue s₁ (eofCode s.bpp) =
      emitValue s s.ent.toNat / 256 ^ (emitBits s / 8) + eofCode s.bpp * 2 ^ (emitBits s % 8) := by
    simp only [emitValue, h3, h4]
  have hb2 : emitBits s₁ = emitBits s % 8 + nextWidth s := by rw [emitBits, h4, h6]
  rw [c1, hv2, hb2] at g2 g3
  rw [hb2] at g4
  have hst := h2.trans g2
  rw [bytesOf_two] at hst
  rw [rest_two] at g3
  obtain ⟨s₃, k1, k2, k3⟩ := flushAcc_spec g5
  rw [g3, g4] at k2
  have hall := hst.trans k2
  have hlen : (emitBits s + nextWidth s) / 8 + ((emitBits s % 8 + nextWidth s) % 8 + 7) / 8 = endBytes s := by
    unfold endBytes; omega
  rw [← bytesOf_append, hlen] at hall
  obtain ⟨s₄, m1, m2, m3, m4⟩ := flushBlock_spec hall.buffer
  have hn : s₂.nBits.toNat = widen s.freeEnt.toNat (nextWidth s) := by
    rw [g6, widthUpdate_nBits_toNat (by rw [h7.bpp]; exact h.bpp) hhi, h8, if_neg (by simp), h6, h7.freeEnt]
  have hfin : finishFrame s = .ok (closeFrame s₄) := by
    simp only [finishFrame, h1, Except.bind, h7.bpp, g1, k1, m1, Except.map]
  refine ⟨s₃, closeFrame s₄, hall, hfin, ?_, ?_, ?_, ?_, ?_, ?_, ?_, finishFrame_frame hfin⟩
  · simp only [closeFrame, terminate, outBytes, m2, closeStream, streamOf]
    by_cases he : heldBytes s₃ = [] <;> simp [he]
  · simp only [closeFrame_buf]; rw [m4]
  · simp only [closeFrame_acc]; rw [m4, k3]
  · simp only [closeFrame_curBits]; rw [m4, k3]
  · simpa using m3
  · simp only [closeFrame_nBits]; rw [m4, k3]; exact hn
  · simp only [closeFrame_clearFlag]; rw [m4, k3, g7]

end Sys2Proof.Machine
end

