-- ==== Sys2Proof/Laws/Fetch.lean ====
section
/-! SUPPORT. What is left of the inputs when RESET is taken in FAULT. -/

namespace Sys2Proof.Machine

/-- There is no RESET to take exactly when none is asserted (R137). -/
theorem afterReset_eq_none {l : List Input} : afterReset l = none ↔ ∀ x ∈ l, assertsReset x = false := by
  induction l with
  | nil => simp [afterReset]
  | cons x l ih => cases x <;> simp [afterReset, assertsReset, ih]

/-- Words that wait before the rest of the inputs stay presented, those taken back apart (R154). -/
theorem afterReset_append {waiting rest : List Input} (h : ∀ x ∈ waiting, assertsReset x = false) :
    afterReset (waiting ++ rest) = (afterReset rest).map fun l => waiting.filter staysPresented ++ l := by
  induction waiting with
  | nil => simp
  | cons x waiting ih =>
    have ih := ih fun y hy => h y (List.mem_cons_of_mem _ hy)
    have hx := h x List.mem_cons_self
    cases x with
    | word w => simp [afterReset, ih, staysPresented, List.filter_cons, Option.map_map, Function.comp_def]
    | wordUntilReset w => simp [afterReset, ih, staysPresented]
    | reset => cases hx
    | cutWord w => cases hx

end Sys2Proof.Machine
end

