-- ==== Sys2Proof/Laws/MemoryWf.lean ====
section
/-! SUPPORT. Every operation that writes a memory keeps its canonical form, and the state after reset has it. -/

namespace Sys2Proof.Machine

theorem memoryWf_reset : State.reset.memoryWf := by simp [State.reset, State.memoryWf, Memory.wf]

theorem memoryWf_takeReset (s : State) : (takeReset s).memoryWf := by simp [takeReset, State.memoryWf, Memory.wf]

theorem memoryWf_clearTable {s : State} (h : s.memoryWf) : (clearTable s).memoryWf :=
  ⟨Memory.map_wf (fun _ => rfl) h.1, h.2⟩

theorem memoryWf_insertEntry {s : State} {i : Nat} (e : BitVec 12) (c : BitVec 8) (v : BitVec 12) (h : s.memoryWf)
    (hi : i < Config.hsize) : (insertEntry i e c v s).memoryWf :=
  ⟨Memory.write_wf _ h.1 hi, h.2⟩

theorem memoryWf_storeByte {s : State} (b : Byte) (h : s.memoryWf) (hb : s.bufCnt.toNat < Config.bufCap) :
    (storeByte b s).memoryWf :=
  ⟨h.1, Memory.write_wf _ h.2 hb⟩

end Sys2Proof.Machine
end

