-- ==== Sys2Proof/Laws/PerInstr.lean ====
section
/-! SUPPORT. Statements about every command, one lemma per constructor. -/

namespace Sys2Proof.Laws.EncodeRow

/-- The word of a command matches its row of the opcode table exactly when the command is well-formed, reserved bits
included; a word that does not match it is rejected by the decoder (30_encoding.md R61, R62). -/
def Statement (i : Instr) : Prop :=
  (i.row.fits (encode i) = true ↔ i.wellFormed = true) ∧
    (i.wellFormed = false → ∃ e, decode (encode i) = .error e)

theorem startFacts (arg : BitVec 8) :
    (startRow.fits (encode (.start arg)) = true ↔ startBitsClear arg = true) ∧
      (startBitsClear arg = false →
        decode (encode (.start arg)) = .error (.startReservedBits (encode (.start arg)))) := by
  revert arg; decide

theorem endFacts (arg : BitVec 8) :
    (endRow.fits (encode (.endFrame arg)) = true ↔ endBitsClear arg = true) ∧
      (endBitsClear arg = false →
        decode (encode (.endFrame arg)) = .error (.endReservedBits (encode (.endFrame arg)))) := by
  revert arg; decide

theorem start (arg : BitVec 8) : Statement (.start arg) :=
  ⟨(startFacts arg).1, fun h => ⟨_, (startFacts arg).2 h⟩⟩

theorem sym (c : BitVec 8) : Statement (.sym c) := by
  have h : ∀ c, symRow.fits (encode (.sym c)) = true := by decide
  exact ⟨by simp [Instr.wellFormed, Instr.row, h c], by simp [Instr.wellFormed]⟩

theorem endFrame (arg : BitVec 8) : Statement (.endFrame arg) :=
  ⟨(endFacts arg).1, fun h => ⟨_, (endFacts arg).2 h⟩⟩

theorem reserved (arg : BitVec 8) : Statement (.reserved arg) := by
  have h : ∀ arg, reservedRow.fits (encode (.reserved arg)) = true := by decide
  exact ⟨by simp [Instr.wellFormed, Instr.row, h arg], by simp [Instr.wellFormed]⟩

end Sys2Proof.Laws.EncodeRow
end

