-- ==== Sys2Proof/Tests/Slice0.lean ====
section
/-! SUPPORT. Tests and witnesses. Expected values are those of the spec's examples and tables, named with each test; the
witnesses show that the hypotheses of each obligation can be met together. -/

namespace Sys2Proof.Tests.Slice0

open Sys2Proof.Machine

/-! Helpers -/

/-- A state outside a frame. -/
def idleState : State where
  phase := .idle
  faultCode := .noFault
  bpp := 0
  ent := 0
  entValid := false
  nBits := 0
  freeEnt := 0
  clearFlag := false
  acc := 0
  curBits := 0
  bufCnt := 0
  ht := none
  buf := []
  inputs := []
  out := []
  freeCount := 1

/-- The state `START 2` leaves (R80, example). -/
def runState : State :=
  { idleState with phase := .run, bpp := 2, nBits := 3, freeEnt := 6, acc := 4, curBits := 3, ht := some [] }

/-- The state `START 2; SYM 1` leaves (R81, example). -/
def prefixState : State := { runState with ent := 1, entValid := true }

/-- The state `START 2; SYM 1; SYM 2` leaves (R81 and R82, examples). -/
def twoState : State :=
  { prefixState with ent := 2, freeEnt := 7, acc := 12, curBits := 6, ht := some [(33, { valid := true, key := 0x2001, code := 6 })] }

/-- `prefixState` with the code space exhausted. -/
def fullState : State := { prefixState with nBits := 12, freeEnt := 4096 }

/-- A state in FAULT. -/
def faultState : State := { runState with phase := .fault, faultCode := .protocol }

/-- `prefixState` one byte short of a full buffer. -/
def almostFull : State := { prefixState with bufCnt := 254, buf := (List.range 254).map fun j => (j, 0x00#8) }

def presents (s : State) (xs : List Input) : State := { s with inputs := xs }

/-- The outcome is a next state in which `p` holds. -/
def nextHas (r : Result) (p : State → Bool) : Bool :=
  match r with
  | .next t => p t
  | _ => false

theorem nextHas_next {r : Result} {p : State → Bool} (h : nextHas r p = true) : ∃ t, r = .next t ∧ p t = true := by
  cases r with
  | next t => exact ⟨t, rfl, h⟩
  | fault r => cases h
  | refused r => cases h

/-- The outcome is a fault entry with this code from this state, all else unchanged (R136). -/
def faultsFrom (s : State) (code : FaultCode) (r : Result) : Bool :=
  nextHas r fun t => t == { s with phase := .fault, faultCode := code }

/-! WellFormed: each check refuses an ill-formed term (R62) -/

theorem test_wellFormed_start_reserved_bits : Instr.wellFormed (.start 0x12) = false := by decide
theorem test_wellFormed_start_top_bit : Instr.wellFormed (.start 0x82) = false := by decide
theorem test_wellFormed_end_arg : Instr.wellFormed (.endFrame 0x01) = false := by decide
theorem test_wellFormed_end_top_bit : Instr.wellFormed (.endFrame 0x80) = false := by decide
theorem test_wellFormed_accepts :
    Instr.wellFormed (.start 0x0F) = true ∧ Instr.wellFormed (.sym 0xFF) = true ∧
      Instr.wellFormed (.endFrame 0x00) = true ∧ Instr.wellFormed (.reserved 0xFF) = true := by decide

/-! Decode: words written out from R60 and R61 -/

theorem test_decode_start : decode 0b00_0000_1000#10 = .ok (.start 0x08) := by decide
theorem test_decode_sym : decode 0b01_1010_0101#10 = .ok (.sym 0xA5) := by decide
theorem test_decode_end : decode 0b10_0000_0000#10 = .ok (.endFrame 0x00) := by decide
theorem test_decode_reserved : decode 0b11_0000_0000#10 = .ok (.reserved 0x00) := by decide
theorem test_decode_start_reserved_bit : decode 0b00_1000_0010#10 = .error (.startReservedBits 0x082) := by decide
theorem test_decode_end_reserved_bit : decode 0b10_1000_0000#10 = .error (.endReservedBits 0x280) := by decide
theorem test_decodeTableWord_rows :
    decodeTableWord 16 0x002 = some (.start 2) ∧ decodeTableWord 16 0x1FF = some (.sym 255) ∧
      decodeTableWord 16 0x200 = some (.endFrame 0) ∧ decodeTableWord 16 0x3FF = some (.reserved 255) := by decide
/-- The command port has ten wires (R30). -/
theorem test_decodeTableWord_eleven_bits : decodeTableWord 16 0x400 = none := by decide
theorem test_encode : encode (.start 4) = 0x004 ∧ encode (.sym 0x0F) = 0x10F ∧ encode (.endFrame 0) = 0x200 := by decide

/-- The notation of R69 and R70: the worked program `START 2; SYM 1; SYM 2; END`, words as in the examples of R80 to R82. -/
theorem test_assemble_frame :
    assemble [.frame 2 [1, 2]] = [.word 0x002, .word 0x101, .word 0x102, .word 0x200] ∧
      assemble [.start 2, .rep 0 3, .reset] = [.word 0x002, .word 0x100, .word 0x100, .word 0x100, .reset] := by decide

/-! One step of each command -/

/-- R80, example. -/
theorem test_start_bpp2 : nextHas (exec (.start 2) idleState) (fun t => t == runState) = true := by decide

/-- R25, last column, `bpp = 8`. -/
theorem test_start_bpp8 :
    nextHas (exec (.start 8) { runState with phase := .done, acc := 0, curBits := 0 }) (fun t =>
      t.acc == 1 && t.curBits == 1 && t.bufCnt == 1 && t.buf == [(0, 0x00)] && t.nBits == 9 && t.freeEnt == 258 &&
        t.phase == .run && t.out == []) = true := by decide

/-- R81, example: a miss. -/
theorem test_sym_miss : nextHas (exec (.sym 2) prefixState) (fun t => t == twoState) = true := by decide

/-- R81, corner case 4: the prefix 1 and `CLEAR` 4 in 12 bits each above the bits 100; the bits are
`100 | 1 << 3 | 4 << 15`, bytes `0C 00 02`, three bits left. -/
theorem test_sym_full :
    nextHas (exec (.sym 2) fullState) (fun t =>
      t.ent == 2 && t.freeEnt == 6 && t.nBits == 3 && t.clearFlag == false && t.ht == some [] && t.curBits == 3 &&
        t.acc == 0 && t.buf == [(0, 0x0C), (1, 0x00), (2, 0x02)] && t.bufCnt == 3 && t.out == []) = true := by decide

/-- R82, example: the frame `02 8C 0A 00`. -/
theorem test_end :
    nextHas (exec (.endFrame 0) twoState) (fun t =>
      t.out == [0x02, 0x8C, 0x0A, 0x00] && t.phase == .done && t.entValid == false && t.acc == 0 && t.curBits == 0 &&
        t.bufCnt == 0 && t.nBits == 3 && t.freeEnt == 7) = true := by decide

/-- R62 (a). -/
theorem test_reserved : faultsFrom runState .illegalCommand (exec (.reserved 0x7F) runState) = true := by decide

/-- R102, examples: `HASH(16, 1)` is 0 and the next slot 5002; `HASH(17, 1)` is 1 and the next slot 2. -/
theorem test_probe_wraps :
    probeTable [(0, { valid := true, key := keyOf 0 0, code := 6 })] 16 1 = .ok (false, 5002) ∧
      probeTable [(1, { valid := true, key := keyOf 1 0, code := 6 })] 17 1 = .ok (false, 2) := by
  constructor <;> rfl

/-- R137: a command in FAULT has no step. -/
theorem test_fault_phase : step (presents faultState [.word 0x002]) = .fault .faultPhase := by rfl

/-! Witnesses: the invariant -/

theorem witness_blockInv_idle : BlockInv idleState := by
  constructor <;> simp [idleState, State.memoryWf, Memory.wf]

theorem witness_tableInv_empty : TableInv 2 6 [] := tableInv_empty (b := 2) rfl

theorem witness_tableInv_one : TableInv 2 7 [(33, { valid := true, key := 0x2001, code := 6 })] :=
  tableInv_insert (b := 2) (t := []) (e := 1) (c := 2) (v := 6) (i := 33) witness_tableInv_empty (by decide)
    (by refine ⟨by decide, by decide, by decide, .inl (by decide)⟩) (by decide) rfl

theorem witness_runInv_prefix : RunInv prefixState := by
  refine ⟨by decide, by decide, by decide, by decide, fun _ => ⟨by decide, by decide, by decide, .inl (by decide)⟩,
    ⟨⟨by decide, by decide⟩, by decide, by decide⟩, [], rfl, witness_tableInv_empty⟩

theorem witness_blockInv_run : BlockInv prefixState := by
  refine ⟨by simp [prefixState, runState, idleState, State.memoryWf, Memory.wf], by decide, by decide, by decide, by decide, by decide,
    fun _ => witness_runInv_prefix⟩

theorem witness_blockInv_fault : BlockInv faultState := by
  refine ⟨by simp [faultState, runState, idleState, State.memoryWf, Memory.wf], by decide, by decide, by decide, by decide, by decide,
    fun h => by cases h⟩

theorem witness_emitReady : EmitReady prefixState :=
  ⟨by decide, by decide, by decide, by decide, ⟨⟨by decide, by decide⟩, by decide, by decide⟩⟩

theorem witness_emitReady_full : EmitReady fullState :=
  ⟨by decide, by decide, by decide, by decide, ⟨⟨by decide, by decide⟩, by decide, by decide⟩⟩

theorem witness_emitReady_two : EmitReady twoState :=
  ⟨by decide, by decide, by decide, by decide, ⟨⟨by decide, by decide⟩, by decide, by decide⟩⟩

theorem witness_bufInv_almostFull : BufInv almostFull ∧ almostFull.bufCnt.toNat = 254 := by
  refine ⟨⟨by decide +kernel, by decide +kernel⟩, by decide +kernel⟩

/-! Witnesses: one per obligation with hypotheses -/

theorem witness_DecodeRecoversCommand :
    Instr.wellFormed (.start 0x0F) = true ∧ Instr.wellFormed (.sym 0xFF) = true ∧
      Instr.wellFormed (.endFrame 0) = true ∧ Instr.wellFormed (.reserved 0x80) = true := by decide

theorem witness_DecodedWordIsItsEncoding :
    decode 0x00F = .ok (.start 0x0F) ∧ decode 0x010 = .error (.startReservedBits 0x010) ∧
      decode 0x0FF = .error (.startReservedBits 0x0FF) ∧ decode 0x2FF = .error (.endReservedBits 0x2FF) := by decide

/-- Each clause at both ends of its range. -/
theorem witness_EveryWordIsCommandOrFault :
    (∀ w ∈ [0x300#10, 0x3FF#10, 0x010#10, 0x0FF#10, 0x201#10, 0x2FF#10],
      faultsFrom idleState .illegalCommand (step (presents idleState [.word w])) = true) ∧
    (∀ w ∈ [0x000#10, 0x003#10, 0x00F#10],
      faultsFrom idleState .illegalConfig (step (presents idleState [.word w])) = true ∧
        faultsFrom runState .protocol (step (presents runState [.word w])) = true) ∧
    (∀ w ∈ [0x104#10, 0x1FF#10], faultsFrom runState .symbolRange (step (presents runState [.word w])) = true) ∧
    (∀ w ∈ [1#10, 2#10, 4#10, 8#10], (decode w).toOption = some (.start (argOf w))) ∧
    decode 0x100 = .ok (.sym 0) ∧ decode 0x1FF = .ok (.sym 255) ∧ decode 0x200 = .ok (.endFrame 0) := by
  decide +kernel

/-- A word held until RESET only is accepted like any other outside FAULT. -/
theorem witness_StepRunsDecodedCommand_until_reset :
    nextHas (step (presents idleState [.wordUntilReset 2])) (fun t => t == runState) = true := by decide

theorem witness_StepRunsDecodedCommand :
    (State.reset.withFetchWord 16 2).phase ≠ .fault ∧ (State.reset.withFetchWord 16 2).inputs = [.word 2] ∧
      decode 2 = .ok (.start 2) := by
  refine ⟨by decide, rfl, by decide⟩

/-- From reset the presented START runs as the first instruction (95_test_vectors.md V1 begins so). -/
theorem witness_StepRunsDecodedCommand_first :
    nextHas (step (State.reset.withFetchWord 16 2)) (fun t => t.acc == 4 && t.curBits == 3 && t.phase == .run) = true := by
  decide

theorem witness_StepWaitsForInput : State.reset.phase ≠ .fault ∧ State.reset.inputs = [] := ⟨by decide, rfl⟩

theorem witness_ResetTakenInEveryPhase :
    (presents faultState [.reset]).phase = .fault ∧ (presents faultState [.reset]).inputs = [.reset] ∧
      startBitsClear 8 = true ∧ legalBpp (bppField 8) = true ∧
      nextHas (exec (.sym 0) idleState) (fun t => t.phase == .fault) = true := by decide

theorem witness_ResetInsideStepCutsOutput :
    (presents twoState [.cutWord 0x200]).phase ≠ .fault ∧ (presents twoState [.cutWord 0x200]).inputs = [.cutWord 0x200] ∧
      nextHas (acceptWord 0x200 (presents twoState [])) (fun u => u.out == [0x02, 0x8C, 0x0A, 0x00]) = true := by decide

theorem witness_FaultPhaseAcceptsNothing :
    faultState.phase = .fault ∧
      ∀ x ∈ (presents faultState [.word 0x200, .wordUntilReset 0x101]).inputs, assertsReset x = false := by decide

theorem witness_OnlyResetLeavesFault :
    (presents faultState [.reset]).phase = .fault ∧
      nextHas (step (presents faultState [.reset])) (fun t => t.phase == .idle) = true ∧
      nextHas (step (presents faultState [.word 2, .cutWord 2])) (fun t => t.phase == .idle) = true := by decide

/-- R154: the word 0x002 held through RESET is the first command after it. P3 of 95_test_vectors.md: `SYM 1` presented in
FAULT is not accepted, and after RESET the next command is `START 2`. -/
theorem witness_WaitingWordIsNotLost :
    faultState.phase = .fault ∧ (∀ x ∈ [Input.word 2, .wordUntilReset 0x101], assertsReset x = false) ∧
      nextHas (step (presents faultState [.word 2, .reset])) (fun t =>
        nextHas (step t) (fun u => u.phase == .run && u.acc == 4)) = true ∧
      nextHas (step (presents faultState [.wordUntilReset 0x101, .reset, .word 2])) (fun t =>
        t.inputs == [.word 2]) = true ∧
      nextHas (step (presents faultState [.cutWord 2])) (fun t => t.inputs == [.word 2]) = true ∧
      step (presents faultState [.word 2]) = .fault .faultPhase := by
  refine ⟨rfl, by decide, by decide, by decide, by decide, rfl⟩

theorem witness_FaultEntryIsPrecise :
    nextHas (exec (.sym 4) prefixState) (fun t => t.phase == .fault) = true ∧
      nextHas (acceptWord 0x013 prefixState) (fun t => t.phase == .fault) = true := by decide

/-- R133, its four examples, and each clause at a boundary. -/
theorem witness_FaultPriority :
    faultsFrom runState .protocol (exec (.start 3) runState) = true ∧
      faultsFrom runState .illegalCommand (acceptWord 0x013 runState) = true ∧
      faultsFrom idleState .protocol (exec (.sym 9) idleState) = true ∧
      faultsFrom idleState .illegalCommand (acceptWord 0x201 idleState) = true ∧
      faultsFrom idleState .illegalCommand (exec (.start 0x10) idleState) = true ∧
      faultsFrom idleState .illegalConfig (exec (.start 0x0F) idleState) = true ∧
      faultsFrom runState .symbolRange (exec (.sym 4) runState) = true ∧
      faultsFrom idleState .protocol (exec (.endFrame 0) idleState) = true ∧
      faultsFrom runState .emptyInput (exec (.endFrame 0) runState) = true := by decide

theorem witness_FaultCodesHaveTheirCause :
    nextHas (exec (.endFrame 0) runState) (fun t => t.phase == .fault && t.faultCode == .emptyInput) = true ∧
      nextHas (exec (.sym 255) runState) (fun t => t.phase == .fault && t.faultCode == .symbolRange) = true ∧
      nextHas (exec (.start 0) idleState) (fun t => t.phase == .fault && t.faultCode == .illegalConfig) = true ∧
      nextHas (exec (.start 1) runState) (fun t => t.phase == .fault && t.faultCode == .protocol) = true ∧
      nextHas (exec (.endFrame 255) runState) (fun t => t.phase == .fault && t.faultCode == .illegalCommand) = true := by
  decide

theorem witness_ReservedRaisesIllegalCommand : idleState.phase ≠ .fault ∧ runState.phase ≠ .fault := by decide

theorem witness_PhaseTransitions :
    nextHas (exec (.start 1) idleState) (fun t => t.phase == .run) = true ∧
      nextHas (exec (.sym 3) prefixState) (fun t => t.phase == .run) = true ∧
      nextHas (exec (.endFrame 0) prefixState) (fun t => t.phase == .done) = true := by decide

/-- Every legal `bpp`, from IDLE and from DONE. -/
theorem witness_StartBeginsFrame :
    ∀ b ∈ [1#8, 2#8, 4#8, 8#8], startBitsClear b = true ∧ legalBpp (bppField b) = true ∧ idleState.phase = .idle ∧
      ({ idleState with phase := .done } : State).phase = .done := by decide

theorem witness_StartForgetsThePast :
    idleState.phase = .idle ∧ ({ almostFull with phase := .done } : State).phase = .done ∧ startBitsClear 4 = true ∧
      legalBpp (bppField 4) = true := by decide

theorem witness_FirstSymbolBecomesPrefix :
    runState.phase = .run ∧ (3#8).toNat < 2 ^ runState.bpp.toNat ∧ runState.entValid = false ∧
      nextHas (exec (.sym 3) runState) (fun t => t.ent == 3 && t.entValid) = true := by decide

theorem witness_SymbolHitExtendsPrefix :
    ({ twoState with ent := 1 } : State).phase = .run ∧ twoState.entValid = true ∧
      probeTable [(33, { valid := true, key := 0x2001, code := 6 })] 1 2 = .ok (true, 33) ∧
      nextHas (exec (.sym 2) { twoState with ent := 1 }) (fun t => t == { twoState with ent := 6 }) = true := by
  refine ⟨rfl, rfl, rfl, by decide⟩

theorem witness_SymbolMissEntersString :
    prefixState.phase = .run ∧ (2#8).toNat < 2 ^ prefixState.bpp.toNat ∧ prefixState.entValid = true ∧
      EmitReady prefixState ∧ prefixState.ht = some [] ∧ probeTable [] prefixState.ent 2 = .ok (false, 33) ∧
      prefixState.freeEnt.toNat < 4096 :=
  ⟨rfl, by decide, rfl, witness_emitReady, rfl, rfl, by decide⟩

theorem witness_SymbolMissClearsFullTable :
    fullState.phase = .run ∧ (2#8).toNat < 2 ^ fullState.bpp.toNat ∧ fullState.entValid = true ∧
      EmitReady fullState ∧ fullState.ht = some [] ∧ probeTable [] fullState.ent 2 = .ok (false, 33) ∧
      fullState.freeEnt.toNat = 4096 :=
  ⟨rfl, by decide, rfl, witness_emitReady_full, rfl, rfl, by decide⟩

/-- A miss with room, a miss with a full table, and a first symbol. -/
theorem witness_SymbolFrame :
    EmitReady prefixState ∧ nextHas (exec (.sym 2) prefixState) (fun t => t.phase != .fault) = true ∧
      EmitReady fullState ∧ nextHas (exec (.sym 2) fullState) (fun t => t.phase != .fault) = true ∧
      symbolBytes 2 fullState = 3 ∧ symbolBytes 2 prefixState = 0 ∧ symbolBytes 2 runState = 0 ∧
      probe prefixState.ent 2 prefixState = .ok (false, 33) :=
  ⟨witness_emitReady, by decide, witness_emitReady_full, by decide, by decide, by decide, by decide, rfl⟩

/-- Nothing with an empty buffer, one block of 256 bytes with 254 bytes held. -/
theorem witness_SymbolOutputsNothingOrBlock :
    nextHas (exec (.sym 2) fullState) (fun t => t.out == []) = true ∧
      nextHas (exec (.sym 2) { almostFull with curBits := 7 }) (fun t => t.out.length == 256 && t.bufCnt == 0) = true := by
  decide +kernel

theorem witness_EndFinishesFrame :
    twoState.phase = .run ∧ twoState.entValid = true ∧ EmitReady twoState := ⟨rfl, rfl, witness_emitReady_two⟩

theorem witness_EndOutputBounds :
    EmitReady twoState ∧ nextHas (exec (.endFrame 0) twoState) (fun t => t.phase == .done) = true :=
  ⟨witness_emitReady_two, by decide⟩

/-- The buffer with one byte's room, and the empty one. -/
theorem witness_ByteOutStoresAndFlushes :
    BufInv almostFull ∧ almostFull.bufCnt.toNat = 254 ∧ BufInv prefixState ∧ prefixState.bufCnt.toNat < 254 :=
  ⟨witness_bufInv_almostFull.1, witness_bufInv_almostFull.2, witness_emitReady.stream.toBufInv, by decide⟩

/-- R121, example: `02 8C 0A`. -/
theorem witness_FlushBlockOutputsHeldBytes :
    (∀ j < 2, (Memory.read [(0, 0x8C#8), (1, 0x0A#8)] j).isSome) ∧
      (flushBlock { runState with buf := [(0, 0x8C), (1, 0x0A)], bufCnt := 2 }).toOption.map (fun t => t.out) =
        some [0x02, 0x8C, 0x0A] := by decide

/-- R112, examples. -/
theorem witness_WidthUpdateGrowsByOne :
    (widthUpdate { runState with freeEnt := 7 }).nBits = 3 ∧ (widthUpdate { runState with freeEnt := 8 }).nBits = 4 ∧
      (widthUpdate { runState with nBits := 12, freeEnt := 4096 }).nBits = 12 ∧
      (widthUpdate { runState with bpp := 8, nBits := 12, freeEnt := 258, clearFlag := true }).nBits = 9 := by decide

/-- R110, example: `EmitCode(2)` over `acc = 12`, `cur_bits = 6`. -/
theorem witness_EmitCodePacksBits :
    StreamInv twoState ∧ twoState.nBits.toNat ≤ 12 ∧ (2#12).toNat < 2 ^ twoState.nBits.toNat ∧
      (emitCode 2 twoState).toOption.map (fun t => (t.buf, t.acc, t.curBits)) = some ([(0, 0x8C#8)], 0#32, 1#5) :=
  ⟨witness_emitReady_two.stream, by decide, by decide, by decide⟩

/-- R113, example: `acc = 10`, `cur_bits = 4` leaves `0x0A`; with no bits waiting nothing is written. -/
theorem witness_FlushAccPadsWithZeros :
    StreamInv { runState with acc := 10, curBits := 4 } ∧ StreamInv { runState with acc := 0, curBits := 0 } ∧
      (flushAcc { runState with acc := 10, curBits := 4 }).toOption.map (fun t => (t.buf, t.acc, t.curBits)) =
        some ([(0, 0x0A#8)], 0#32, 0#5) :=
  ⟨⟨⟨by decide, by decide⟩, by decide, by decide⟩, ⟨⟨by decide, by decide⟩, by decide, by decide⟩, by decide⟩

/-- R100 and R101, examples. -/
theorem witness_KeyAndHash : keyOf 1 2 = 0x2001 ∧ hashOf 1 2 = 33 ∧ hashOf 16 1 = 0 ∧ hashOf 4095 255 = 15 := by decide

theorem witness_ProbeSlotSequence :
    (nextSlot (displacement 1))^[1] 1 = 2 ∧ (nextSlot (displacement 5002))^[1] 5002 = 5001 ∧
      (nextSlot (displacement 0))^[1] 0 = 5002 := by decide

theorem witness_ProbeTerminates : (liveEntries [(33, ({ valid := true, key := 0x2001, code := 6 } : HtEntry))]).length ≤ 4090 := by
  decide

/-- A pair of the map, and one that is not. -/
theorem witness_ProbeReadsTheMap :
    legalBpp 2 = true ∧ TableInv 2 7 [(33, { valid := true, key := 0x2001, code := 6 })] ∧
      tableMaps [(33, { valid := true, key := 0x2001, code := 6 })] 1 2 6 ∧
      ∀ code, ¬ tableMaps [(33, { valid := true, key := 0x2001, code := 6 })] 2 1 code := by
  refine ⟨by decide, witness_tableInv_one, ⟨_, List.mem_singleton.2 rfl, by decide, by decide, rfl⟩, ?_⟩
  rintro code ⟨x, hx, h, -⟩
  rw [List.mem_singleton.1 hx] at h
  exact absurd h (by decide)

theorem witness_InsertAddsOnePair : prefixState.ht = some [] ∧ probeTable [] 1 2 = .ok (false, 33) := ⟨rfl, rfl⟩

theorem witness_StepKeepsInvariant :
    BlockInv prefixState ∧ nextHas (step prefixState) (fun t => t == prefixState) = true ∧
      nextHas (step (presents prefixState [.word 0x102])) (fun t => t == twoState) = true :=
  ⟨witness_blockInv_run, by decide, by decide⟩

theorem witness_SafeStateAlwaysSteps :
    BlockInv prefixState ∧ prefixState.phase ≠ .fault ∧ BlockInv faultState ∧ faultState.phase = .fault ∧
      step faultState = .fault .faultPhase :=
  ⟨witness_blockInv_run, by decide, witness_blockInv_fault, rfl, rfl⟩

theorem witness_PrefixFitsCurrentWidth : BlockInv prefixState ∧ prefixState.phase = .run ∧ prefixState.entValid = true :=
  ⟨witness_blockInv_run, rfl, rfl⟩

theorem witness_OutputOnlyGrows : nextHas (step twoState) (fun t => t == twoState) = true := by decide

theorem witness_LegalFrame : LegalFrame 2 [1, 2] ∧ LegalFrame 8 [255] ∧ LegalFrame 1 [1, 0, 1] := by
  refine ⟨⟨by decide, by decide, by decide⟩, ⟨by decide, by decide, by decide⟩, ⟨by decide, by decide, by decide⟩⟩

theorem witness_FrameOutputIsAbstractFrame :
    BlockInv (presents idleState (frameInputs 2 [1, 2] ++ [.reset])) ∧ LegalFrame 2 [1, 2] ∧
      frameBytes (payloadOf (frameCodes 2 1 [2])) = [0x02, 0x8C, 0x0A, 0x00] := by
  refine ⟨?_, witness_LegalFrame.1, by decide⟩
  constructor <;> simp [presents, idleState, State.memoryWf, Memory.wf]

theorem witness_FrameOutputForgetsThePast :
    BlockInv (presents idleState (frameInputs 2 [1, 2])) ∧
      BlockInv (presents { idleState with phase := .done, out := [0x00] } (frameInputs 2 [1, 2])) ∧ LegalFrame 2 [1, 2] := by
  refine ⟨?_, ?_, witness_LegalFrame.1⟩ <;> constructor <;> simp [presents, idleState, State.memoryWf, Memory.wf]

/-- R115 on the worked frame of R80 to R82. -/
theorem witness_StandardDecoderRecoversSymbols :
    LegalFrame 2 [1, 2] ∧ standardDecode 2 [0x8C, 0x0A] = some ([1, 2], 4) := ⟨witness_LegalFrame.1, by decide⟩

theorem witness_UnframeRecoversPayload : ([0x8C#8, 0x0A#8]).length < 3 ∧ ([] : List Byte).length < 1 := by decide

/-- Both ends of the range of `j` at `bpp = 2`, with the width table of R65. -/
theorem witness_DataCodeWidthClosedForm :
    legalBpp 2 = true ∧ firstCode 2 + 1 - 1 ≤ 4096 ∧ firstCode 2 + 4091 - 1 ≤ 4096 ∧ dataCodeWidth 2 3 = 3 ∧
      dataCodeWidth 2 4 = 4 ∧ dataCodeWidth 2 2043 = 11 ∧ dataCodeWidth 2 2044 = 12 ∧ dataCodeWidth 8 256 = 10 := by decide

theorem witness_FrameCodesFitTheirWidth :
    LegalFrame 2 [1, 2] ∧ frameCodes 2 1 [2] = [(4, 3), (1, 3), (2, 3), (5, 3)] := ⟨witness_LegalFrame.1, by decide⟩

/-- The frame of R80 to R82 is one group, `CLEAR 1 2 EOFC`, of two payload bytes. -/
theorem witness_FrameCodesGrammar :
    LegalFrame 2 [1, 2] ∧ (frameCodes 2 1 [2]).map Prod.fst = [[1, 2]].flatMap (fun g => 4 :: g) ++ [5] ∧
      (payloadOf (frameCodes 2 1 [2])).length = 2 := ⟨witness_LegalFrame.1, by decide, by decide⟩

theorem witness_PayloadIsLittleEndianStream :
    (∀ x ∈ [(4, 3), (1, 3), (2, 3), (5, 3)], x.1 < 2 ^ x.2) ∧
      payloadOf [(4, 3), (1, 3), (2, 3), (5, 3)] = [0x8C, 0x0A] := by decide

end Sys2Proof.Tests.Slice0
end

/-! SUPPORT. What one step is outside FAULT, and statement O6 of 00_scope.md. -/

namespace Sys2Proof.Machine

/-- Outside FAULT the block consumes its next input (R28). -/
theorem step_eq_stepAccepting {s : State} (h : s.phase ≠ .fault) : step s = stepAccepting s := if_neg h

/-- A word presented next is accepted after it has been consumed, whether or not it would be taken back at a RESET. -/
theorem stepAccepting_eq_acceptWord {s : State} {w : CmdWord} {rest : List Input}
    (h : s.inputs = .word w :: rest ∨ s.inputs = .wordUntilReset w :: rest) :
    stepAccepting s = acceptWord w { s with inputs := rest } := by
  unfold stepAccepting
  obtain h | h := h <;> rw [h]

/-- Accepting a word that decodes is executing its command (R53). -/
theorem acceptWord_eq_exec {w : CmdWord} {i : Instr} (h : decode w = .ok i) (s : State) : acceptWord w s = exec i s := by
  rw [acceptWord, h]

/-- Settles O6: outside FAULT the step consumes the word presented and accepts it, and accepting a word that decodes is
executing its command. -/
theorem stepRunsDecodedCommand : Obligations.StepRunsDecodedCommand := by
  intro s w rest i hphase hinputs hdecode
  calc step s = stepAccepting s := step_eq_stepAccepting hphase
    _ = acceptWord w { s with inputs := rest } := stepAccepting_eq_acceptWord hinputs
    _ = exec i { s with inputs := rest } := acceptWord_eq_exec hdecode _

end Sys2Proof.Machine

/-! SUPPORT. What one step can answer, and statement O45 of 10_state.md: `OUT` only grows (R21). -/

namespace Sys2Proof.Machine

/-- Every next state of an accepted word is that of its command, or the fault entry of a word that matches no row
(R61, R62). -/
theorem acceptWord_cases {w : CmdWord} {s t : State} (h : acceptWord w s = .next t) :
    (∃ i, decode w = .ok i ∧ exec i s = .next t) ∨
      (∃ e, decode w = .error e) ∧ s.phase ≠ .fault ∧ t = takeFault .illegalCommand s := by
  unfold acceptWord at h
  cases hd : decode w with
  | ok i =>
    rw [hd] at h
    exact .inl ⟨i, rfl, h⟩
  | error e =>
    rw [hd] at h
    obtain ⟨hphase, hnext⟩ := whenAccepting_next.1 h
    cases hnext
    exact .inr ⟨⟨e, rfl⟩, hphase, rfl⟩

/-- RESET inside a word's step leaves the RESET state over some beginning of the bytes the word would have appended
(R151). -/
theorem cutByReset_next {w : CmdWord} {s t : State} (h : cutByReset w s = .next t) :
    ∃ u, acceptWord w s = .next u ∧
      t = takeReset { s with out := s.out ++ (u.out.drop s.out.length).take (Config.cutLength s.freeCount) } := by
  unfold cutByReset at h
  cases ha : acceptWord w s with
  | next u =>
    rw [ha] at h
    cases h
    exact ⟨u, rfl, rfl⟩
  | fault r => rw [ha] at h; cases h
  | refused r => rw [ha] at h; cases h

/-- In FAULT a step takes the RESET its inputs assert, and does nothing else (R138). -/
theorem stepInFault_next {s t : State} (h : stepInFault s = .next t) :
    ∃ rest, afterReset s.inputs = some rest ∧ t = takeReset { s with inputs := rest } := by
  unfold stepInFault at h
  cases hr : afterReset s.inputs with
  | some rest =>
    rw [hr] at h
    cases h
    exact ⟨rest, rfl, rfl⟩
  | none => rw [hr] at h; cases h

/-- What a step can answer: RESET taken in FAULT; and outside FAULT, by the input presented next, waiting, an accepted
word, RESET, and RESET inside a word's step (R28, R138, R145, R150, R151). -/
theorem step_cases {s t : State} (h : step s = .next t) :
    (s.phase = .fault ∧ ∃ rest, afterReset s.inputs = some rest ∧ t = takeReset { s with inputs := rest }) ∨
    (s.phase ≠ .fault ∧
      ((s.inputs = [] ∧ t = s) ∨
       (∃ w rest, (s.inputs = .word w :: rest ∨ s.inputs = .wordUntilReset w :: rest) ∧
         acceptWord w { s with inputs := rest } = .next t) ∨
       (∃ rest, s.inputs = .reset :: rest ∧ t = takeReset { s with inputs := rest }) ∨
       (∃ w rest, s.inputs = .cutWord w :: rest ∧ cutByReset w { s with inputs := rest } = .next t))) := by
  by_cases hphase : s.phase = .fault
  · have hstep : step s = stepInFault s := if_pos hphase
    exact .inl ⟨hphase, stepInFault_next (hstep ▸ h)⟩
  rw [step_eq_stepAccepting hphase, stepAccepting] at h
  refine .inr ⟨hphase, ?_⟩
  cases hin : s.inputs with
  | nil =>
    rw [hin] at h
    cases h
    exact .inl ⟨rfl, rfl⟩
  | cons x rest =>
    rw [hin] at h
    cases x with
    | word w => exact .inr (.inl ⟨w, rest, .inl rfl, h⟩)
    | wordUntilReset w => exact .inr (.inl ⟨w, rest, .inr rfl, h⟩)
    | reset =>
      cases h
      exact .inr (.inr (.inl ⟨rest, rfl, rfl⟩))
    | cutWord w => exact .inr (.inr (.inr ⟨w, rest, rfl, h⟩))

/-- A command only appends to `OUT` (R21): a fault entry leaves it, and each command's own effect grows it. -/
theorem exec_out_prefix {i : Instr} {s t : State} (h : exec i s = .next t) : s.out <+: t.out := by
  obtain ⟨-, ⟨code, rfl, -⟩ | ⟨_, -, -, -, -, hstart⟩ | ⟨_, -, -, -, hsym⟩ | ⟨-, -, -, hend⟩⟩ :=
    exec_cases h
  · exact List.prefix_rfl
  · exact (startFrame_frame hstart).grows
  · exact (consumeSymbol_frame hsym).grows
  · exact (finishFrame_frame hend).grows

/-- An accepted word only appends to `OUT` (R21). -/
theorem acceptWord_out_prefix {w : CmdWord} {s t : State} (h : acceptWord w s = .next t) : s.out <+: t.out := by
  obtain ⟨i, -, hexec⟩ | ⟨-, -, rfl⟩ := acceptWord_cases h
  · exact exec_out_prefix hexec
  · exact List.prefix_rfl

/-- Settles O45, by what a step can answer: RESET and waiting leave `OUT`, an accepted word appends to it, and so does
the part of it that RESET inside its step lets out. -/
theorem outputOnlyGrows : Obligations.OutputOnlyGrows := by
  intro s t h
  obtain ⟨-, rest, -, rfl⟩ | ⟨-, ⟨-, rfl⟩ | ⟨w, rest, -, hword⟩ | ⟨rest, -, rfl⟩ | ⟨w, rest, -, hcut⟩⟩ :=
    step_cases h
  · exact List.prefix_rfl
  · exact List.prefix_rfl
  · exact acceptWord_out_prefix (s := { s with inputs := rest }) hword
  · exact List.prefix_rfl
  · obtain ⟨u, -, rfl⟩ := cutByReset_next hcut
    exact List.prefix_append _ _

end Sys2Proof.Machine

/-! SUPPORT. The values after reset and the status outputs: statements O8, O13 and O40 of 10_state.md. -/

namespace Sys2Proof.Machine

/-- Settles O8: each value is the one `State.reset` writes, and an empty `BUF` holds no value at any index. -/
theorem resetStateValues : Obligations.ResetStateValues :=
  ⟨rfl, rfl, rfl, rfl, rfl, fun _ => rfl⟩

/-- Settles O40: the reset state is IDLE with `fault_code`, `ent_valid` and `clear_flag` 0 and empty memories, so
the clauses about the other phases say nothing of it. -/
theorem resetMeetsInvariant : Obligations.ResetMeetsInvariant where
  memory := memoryWf_reset
  faultCode := ⟨(fun h => nomatch h), fun h => absurd rfl h⟩
  noCodeSix h := nomatch h
  clearFlag := rfl
  noPrefix _ := rfl
  drained h := nomatch h
  running h := nomatch h

/-- The four phases have four numbers (R12). -/
theorem Phase.bits_inj {p q : Phase} : p.bits = q.bits ↔ p = q := by
  cases p <;> cases q <;> decide

/-- The seven fault codes have seven numbers (R130). -/
theorem FaultCode.bits_inj {c d : FaultCode} : c.bits = d.bits ↔ c = d := by
  cases c <;> cases d <;> decide

/-- No fault code has the number 7 (R130). -/
theorem FaultCode.bits_ne_seven (c : FaultCode) : c.bits ≠ 7#3 := by
  cases c <;> decide

/-- `min_code_size` is `ICS` when `bpp` is legal: its 4 bits hold every code size up to 8 (R5, R22). -/
theorem minCodeSize_toNat {s : State} (h : legalBpp s.bpp = true) : s.minCodeSize.toNat = ics s.bpp := by
  obtain ⟨-, hle, -⟩ := legalBpp_bounds h
  rw [State.minCodeSize, BitVec.toNat_ofNat, Nat.mod_eq_of_lt (by omega)]

/-- Settles O13: the numbers of the phases and of the fault codes are each one's own, so `st_phase` and `st_fault` tell
them apart; `done` and `fault` are tests of the phase. -/
theorem statusOutputs : Obligations.StatusOutputs := by
  intro s
  have hphase (p : Phase) : s.stPhase = p.bits ↔ s.phase = p := Phase.bits_inj
  have hfault (c : FaultCode) : s.stFault = c.bits ↔ s.faultCode = c := FaultCode.bits_inj
  exact ⟨hphase .idle, hphase .run, hphase .done, hphase .fault, beq_iff_eq, beq_iff_eq,
    hfault .noFault, hfault .illegalCommand, hfault .illegalConfig, hfault .protocol, hfault .symbolRange,
    hfault .emptyInput, hfault .invariantViolation, s.faultCode.bits_ne_seven, minCodeSize_toNat⟩

end Sys2Proof.Machine

/-! SUPPORT. The code stream as a number and as bytes: statement O52 of 20_memory.md (R43, R44). -/

namespace Sys2Proof.Machine

/-- Codes that fit their widths make a stream that fits its bit count: `S < 2 ^ T` (R43). -/
theorem streamValue_lt_two_pow_streamLength {codes : List Emitted} (h : ∀ x ∈ codes, x.1 < 2 ^ x.2) :
    streamValue codes < 2 ^ streamLength codes := by
  induction codes with
  | nil => exact Nat.one_pos
  | cons x rest ih =>
    obtain ⟨k, w⟩ := x
    obtain ⟨hk : k < 2 ^ w, hrest⟩ := List.forall_mem_cons.1 h
    calc k + 2 ^ w * streamValue rest < 2 ^ w * (streamValue rest + 1) := by rw [Nat.mul_succ]; omega
      _ ≤ 2 ^ w * 2 ^ streamLength rest := Nat.mul_le_mul_left _ (ih hrest)
      _ = 2 ^ (w + streamLength rest) := (pow_add ..).symm

/-- Byte `j` of a number's bytes is its bits `8j` to `8j + 7`. -/
theorem bytesOf_getElem? {v n j : Nat} (h : j < n) : (bytesOf v n)[j]? = some (BitVec.ofNat 8 (v >>> (8 * j))) := by
  induction n generalizing v j with
  | zero => exact absurd h (Nat.not_lt_zero j)
  | succ n ih =>
    cases j with
    | zero => rfl
    | succ j =>
      have hshift : v >>> (8 * (j + 1)) = (v / 256) >>> (8 * j) := by
        rw [Nat.mul_succ, Nat.add_comm, Nat.shiftRight_add, Nat.shiftRight_eq_div_pow v 8]
      rw [hshift, ← ih (Nat.lt_of_succ_lt_succ h)]
      rfl

/-- A number that fits in `n` bytes is the one its `n` bytes represent (R44). -/
theorem payloadValue_bytesOf {v n : Nat} (h : v < 256 ^ n) : payloadValue (bytesOf v n) = v := by
  induction n generalizing v with
  | zero => exact (Nat.lt_one_iff.1 h).symm
  | succ n ih =>
    have hquot : v / 256 < 256 ^ n := Nat.div_lt_of_lt_mul (pow_succ' 256 n ▸ h)
    rw [bytesOf, payloadValue, ih hquot, BitVec.toNat_ofNat]
    exact Nat.mod_add_div v 256

/-- Settles O52: the bytes are read off `S` one by one, and `S < 2 ^ T` fits in the `ceil(T/8)` of them. -/
theorem payloadIsLittleEndianStream : Obligations.PayloadIsLittleEndianStream := by
  intro codes h
  have hlength : (payloadOf codes).length = (streamLength codes + 7) / 8 := bytesOf_length _ _
  have hfits : streamValue codes < 256 ^ ((streamLength codes + 7) / 8) :=
    calc streamValue codes < 2 ^ streamLength codes := streamValue_lt_two_pow_streamLength h
      _ ≤ 2 ^ (8 * ((streamLength codes + 7) / 8)) := Nat.pow_le_pow_right two_pos (by omega)
      _ = 256 ^ ((streamLength codes + 7) / 8) := pow_mul 2 8 _
  exact ⟨hlength, fun j hj => bytesOf_getElem? (hlength ▸ hj), payloadValue_bytesOf hfits⟩

end Sys2Proof.Machine

/-! SUPPORT. The decoder by the two fields of a word: statements O1 to O5 and O17 of 30_encoding.md (R60 to R62,
R69). -/

namespace Sys2Proof

/-! The two fields of a word (R60) -/

@[simp] theorem opOf_encode (i : Instr) : opOf (encode i) = i.op := BitVec.extractLsb'_append_eq_left

@[simp] theorem argOf_encode (i : Instr) : argOf (encode i) = i.arg := BitVec.extractLsb'_append_eq_right

/-- A word is its two fields. -/
theorem opOf_append_argOf (w : CmdWord) : (opOf w ++ argOf w : BitVec (2 + 8)) = w :=
  (BitVec.extractLsb'_append_extractLsb'_eq_extractLsb' rfl).trans BitVec.extractLsb'_eq_self

theorem word_eq_iff {w v : CmdWord} : w = v ↔ opOf w = opOf v ∧ argOf w = argOf v := by
  constructor
  · rintro rfl
    exact ⟨rfl, rfl⟩
  · rintro ⟨hop, harg⟩
    rw [← opOf_append_argOf w, hop, harg, opOf_append_argOf]

/-- A word as a number, by its fields. -/
theorem toNat_eq_fields (w : CmdWord) : w.toNat = 256 * (opOf w).toNat + (argOf w).toNat := by
  have hop : (opOf w).toNat = w.toNat >>> 8 % 2 ^ 2 := BitVec.extractLsb'_toNat 8 2 w
  have harg : (argOf w).toNat = w.toNat >>> 0 % 2 ^ 8 := BitVec.extractLsb'_toNat 0 8 w
  rw [hop, harg, Nat.shiftRight_eq_div_pow, Nat.shiftRight_zero]
  omega

/-! The rows of the opcode table by the fields (R61) -/

/-- Every row fixes the whole `op` field, and the operand bits its mask keeps. -/
theorem OpcodeRow.fits_iff {r : OpcodeRow} (hr : opOf r.mask = BitVec.allOnes 2) {w : CmdWord} :
    r.fits w = true ↔ opOf w = opOf r.pattern ∧ argOf w &&& argOf r.mask = argOf r.pattern := by
  have hop : opOf (w &&& r.mask) = opOf w := by
    rw [opOf, BitVec.extractLsb'_and, ← opOf, ← opOf, hr, BitVec.and_allOnes]
  have harg : argOf (w &&& r.mask) = argOf w &&& argOf r.mask := BitVec.extractLsb'_and
  rw [OpcodeRow.fits, beq_iff_eq, word_eq_iff, hop, harg]

/-- START's mask keeps exactly the reserved bits of the operand (R62 b). -/
theorem and_startMask_eq_zero_iff (a : BitVec 8) : a &&& 0xF0#8 = 0#8 ↔ startBitsClear a = true := by
  revert a; decide

theorem startRow_fits_iff {w : CmdWord} :
    startRow.fits w = true ↔ opOf w = 0b00#2 ∧ startBitsClear (argOf w) = true :=
  (OpcodeRow.fits_iff rfl).trans (and_congr_right' (and_startMask_eq_zero_iff _))

theorem symRow_fits_iff {w : CmdWord} : symRow.fits w = true ↔ opOf w = 0b01#2 :=
  (OpcodeRow.fits_iff rfl).trans (and_iff_left BitVec.and_zero)

theorem endRow_fits_iff {w : CmdWord} :
    endRow.fits w = true ↔ opOf w = 0b10#2 ∧ endBitsClear (argOf w) = true := by
  have harg : argOf w &&& argOf endRow.mask = argOf w := BitVec.and_allOnes
  rw [OpcodeRow.fits_iff rfl, harg, endBitsClear, beq_iff_eq]
  rfl

theorem reservedRow_fits_iff {w : CmdWord} : reservedRow.fits w = true ↔ opOf w = 0b11#2 :=
  (OpcodeRow.fits_iff rfl).trans (and_iff_left BitVec.and_zero)

/-! The decoder by the fields (R61, R62) -/

section
variable {w : CmdWord} {a : BitVec 8} (harg : argOf w = a)
include harg

theorem decode_start (hop : opOf w = 0b00#2) (ha : startBitsClear a = true) : decode w = .ok (.start a) := by
  subst harg
  rw [decode, if_pos (startRow_fits_iff.2 ⟨hop, ha⟩)]

theorem decode_startReservedBits (hop : opOf w = 0b00#2) (ha : startBitsClear a = false) :
    decode w = .error (.startReservedBits w) := by
  subst harg
  simp [decode, startRow_fits_iff, symRow_fits_iff, endRow_fits_iff, reservedRow_fits_iff, hop, ha]

theorem decode_sym (hop : opOf w = 0b01#2) : decode w = .ok (.sym a) := by
  subst harg
  simp [decode, startRow_fits_iff, symRow_fits_iff, hop]

theorem decode_endFrame (hop : opOf w = 0b10#2) (ha : endBitsClear a = true) : decode w = .ok (.endFrame a) := by
  subst harg
  simp [decode, startRow_fits_iff, symRow_fits_iff, endRow_fits_iff, hop, ha]

theorem decode_endReservedBits (hop : opOf w = 0b10#2) (ha : endBitsClear a = false) :
    decode w = .error (.endReservedBits w) := by
  subst harg
  simp [decode, startRow_fits_iff, symRow_fits_iff, endRow_fits_iff, reservedRow_fits_iff, hop, ha]

theorem decode_reserved (hop : opOf w = 0b11#2) : decode w = .ok (.reserved a) := by
  subst harg
  simp [decode, startRow_fits_iff, symRow_fits_iff, endRow_fits_iff, reservedRow_fits_iff, hop]

end

/-- The four values of `op` (R60). -/
theorem opOf_cases (w : CmdWord) : opOf w = 0b00#2 ∨ opOf w = 0b01#2 ∨ opOf w = 0b10#2 ∨ opOf w = 0b11#2 := by
  generalize opOf w = o
  revert o; decide

theorem row_mem_opcodeRows (i : Instr) : i.row ∈ opcodeRows := by
  cases i <;> simp [Instr.row, opcodeRows]

/-- The `op` field of its pattern tells a row from the others. -/
theorem row_eq_of_pattern_op :
    ∀ r ∈ opcodeRows, ∀ r' ∈ opcodeRows, opOf r.pattern = opOf r'.pattern → r = r' := by decide

/-- Every row's mask keeps the whole `op` field. -/
theorem row_mask_op : ∀ r ∈ opcodeRows, opOf r.mask = BitVec.allOnes 2 := by decide

/-- The word of a command fits its own row exactly when the command is well-formed (R61). -/
theorem row_fits_encode_iff (i : Instr) : i.row.fits (encode i) = true ↔ i.wellFormed = true := by
  cases i with
  | start a => exact (Laws.EncodeRow.start a).1
  | sym c => exact (Laws.EncodeRow.sym c).1
  | endFrame a => exact (Laws.EncodeRow.endFrame a).1
  | reserved a => exact (Laws.EncodeRow.reserved a).1

/-- The word of a well-formed command fits the command's row and no other (R61). -/
theorem fits_encode_iff_eq_row {i : Instr} (hi : i.wellFormed = true) {r : OpcodeRow} (hr : r ∈ opcodeRows) :
    r.fits (encode i) = true ↔ r = i.row := by
  have hown := (row_fits_encode_iff i).2 hi
  have hop {q : OpcodeRow} (hq : q ∈ opcodeRows) (hfits : q.fits (encode i) = true) :
      i.op = opOf q.pattern := by
    rw [← opOf_encode i]
    exact ((OpcodeRow.fits_iff (row_mask_op q hq)).1 hfits).1
  constructor
  · intro hfits
    exact row_eq_of_pattern_op r hr i.row (row_mem_opcodeRows i)
      ((hop hr hfits).symm.trans (hop (row_mem_opcodeRows i) hown))
  · rintro rfl
    exact hown

theorem decode_encode {i : Instr} (hi : i.wellFormed = true) : decode (encode i) = .ok i := by
  have harg := argOf_encode i
  have hop := opOf_encode i
  cases i with
  | start a => exact decode_start harg hop hi
  | sym c => exact decode_sym harg hop
  | endFrame a => exact decode_endFrame harg hop hi
  | reserved a => exact decode_reserved harg hop

/-- Settles O1: the decoder reads the fields the encoder wrote, and the `op` field selects the row. -/
theorem decodeRecoversCommand : Obligations.DecodeRecoversCommand :=
  fun _ hi => ⟨decode_encode hi, fun _ hr => fits_encode_iff_eq_row hi hr⟩

/-- What the decoder accepts, it reads off the word's fields (R61). -/
theorem encode_of_decode {w : CmdWord} {i : Instr} (h : decode w = .ok i) :
    encode i = w ∧ i.wellFormed = true := by
  suffices i.op = opOf w ∧ i.arg = argOf w ∧ i.wellFormed = true by
    obtain ⟨hop, harg, hwf⟩ := this
    exact ⟨word_eq_iff.2 ⟨(opOf_encode i).trans hop, (argOf_encode i).trans harg⟩, hwf⟩
  unfold decode at h
  split_ifs at h with hstart hsym hend hreserved <;> cases h
  · obtain ⟨hop, harg⟩ := startRow_fits_iff.1 hstart
    exact ⟨hop.symm, rfl, harg⟩
  · exact ⟨(symRow_fits_iff.1 hsym).symm, rfl, rfl⟩
  · obtain ⟨hop, harg⟩ := endRow_fits_iff.1 hend
    exact ⟨hop.symm, rfl, harg⟩
  · exact ⟨(reservedRow_fits_iff.1 hreserved).symm, rfl, rfl⟩

/-- What the decoder rejects fits no row (R62). -/
theorem not_fits_of_decode_error {w : CmdWord} {e : DecodeError} (h : decode w = .error e) :
    ∀ r ∈ opcodeRows, r.fits w = false := by
  unfold decode at h
  split_ifs at h with hstart hsym hend hreserved <;> simp [opcodeRows, hstart, hsym, hend, hreserved]

/-- Settles O2: the decoder's four tests are the four rows. -/
theorem decodedWordIsItsEncoding : Obligations.DecodedWordIsItsEncoding :=
  fun _ => ⟨fun _ h => encode_of_decode h, fun _ h => not_fits_of_decode_error h⟩

/-- Settles O3: the fields of each of the six words select its answer. -/
theorem sampleWordsDecode : Obligations.SampleWordsDecode :=
  ⟨decode_start rfl rfl rfl, decode_sym rfl rfl, decode_endFrame rfl rfl rfl, decode_reserved rfl rfl,
    decode_startReservedBits rfl rfl rfl, decode_endReservedBits rfl rfl rfl⟩

end Sys2Proof

namespace Sys2Proof.Machine

/-! The words of the textual form (R69) -/

theorem toNat_bppField (a : BitVec 8) : (bppField a).toNat = a.toNat % 16 :=
  BitVec.extractLsb'_toNat 0 4 a

theorem startBitsClear_iff {a : BitVec 8} : startBitsClear a = true ↔ a.toNat < 16 := by
  have hnibble : (a.extractLsb' 4 4).toNat = a.toNat >>> 4 % 2 ^ 4 := BitVec.extractLsb'_toNat 4 4 a
  rw [startBitsClear, beq_iff_eq, BitVec.toNat_eq, hnibble, Nat.shiftRight_eq_div_pow, BitVec.toNat_ofNat]
  omega

/-- A word is the encoding of the command whose fields, as a number, it has. -/
theorem eq_encode_of_toNat {w : CmdWord} {i : Instr} (h : w.toNat = 256 * i.op.toNat + i.arg.toNat) :
    w = encode i := by
  apply BitVec.eq_of_toNat_eq
  rw [h, toNat_eq_fields (encode i), opOf_encode, argOf_encode]

theorem startWord_eq_encode (b : BitVec 4) : startWord b = encode (.start (b.setWidth 8)) := by
  apply eq_encode_of_toNat
  simp [startWord, Instr.op, Instr.arg]
  omega

theorem symWord_eq_encode (c : BitVec 8) : symWord c = encode (.sym c) := by
  apply eq_encode_of_toNat
  simp [symWord, Instr.op, Instr.arg]
  omega

theorem endWord_eq_encode : endWord = encode (.endFrame 0#8) := rfl

/-- The START operand of the textual form carries the field and no reserved bit (R69). -/
theorem startBitsClear_setWidth (b : BitVec 4) : startBitsClear (b.setWidth 8) = true := by
  rw [startBitsClear_iff, BitVec.toNat_setWidth]
  omega

theorem bppField_setWidth (b : BitVec 4) : bppField (b.setWidth 8) = b := by
  apply BitVec.eq_of_toNat_eq
  rw [toNat_bppField, BitVec.toNat_setWidth]
  omega

theorem decode_startWord (b : BitVec 4) : decode (startWord b) = .ok (.start (b.setWidth 8)) := by
  rw [startWord_eq_encode]
  exact decode_encode (startBitsClear_setWidth b)

theorem decode_symWord (c : BitVec 8) : decode (symWord c) = .ok (.sym c) := by
  rw [symWord_eq_encode]
  exact decode_encode rfl

theorem decode_endWord : decode endWord = .ok (.endFrame 0#8) := decode_endFrame rfl rfl rfl

/-- Settles O4: the words of the textual form are the encodings of well-formed commands. -/
theorem assembledWordsDecode : Obligations.AssembledWordsDecode :=
  ⟨fun b => ⟨decode_startWord b, bppField_setWidth b⟩, decode_symWord, decode_endWord⟩

/-! Every word of the command space (R62) -/

theorem whenAccepting_of_ne {s : State} (h : s.phase ≠ .fault) (k : Result) : whenAccepting s k = k := if_neg h

/-- Settles O17: the fault entry is the reserved opcode's whole effect. -/
theorem reservedRaisesIllegalCommand : Obligations.ReservedRaisesIllegalCommand :=
  fun _ _ hphase => whenAccepting_of_ne hphase _

/-- A word that decodes to nothing takes the IllegalCommand entry (R62 b and c). -/
theorem acceptWord_of_decode_error {w : CmdWord} {e : DecodeError} {s : State} (h : decode w = .error e)
    (hphase : s.phase ≠ .fault) : acceptWord w s = .next (takeFault .illegalCommand s) := by
  rw [acceptWord, h]
  exact whenAccepting_of_ne hphase _

/-- START with an illegal `bpp` faults: in RUN for its phase, elsewhere for its operand (R62 d, R133). -/
theorem exec_start_illegalBpp {s : State} {a : BitVec 8} (hphase : s.phase ≠ .fault) (ha : startBitsClear a = true)
    (hb : legalBpp (bppField a) = false) :
    exec (.start a) s = .next (takeFault (if s.phase = .run then .protocol else .illegalConfig) s) := by
  change execStart a s = _
  rw [execStart, whenAccepting_of_ne hphase, if_neg (by simp [ha])]
  split_ifs <;> rfl

/-- SYM in RUN with a symbol outside the palette (R62 e, R81). -/
theorem exec_sym_outOfRange {s : State} {c : BitVec 8} (hphase : s.phase = .run) (hc : symbolInRange s.bpp c = false) :
    exec (.sym c) s = .next (takeFault .symbolRange s) := by
  change execSym c s = _
  rw [execSym, whenAccepting_of_ne (by simp [hphase]), if_neg (by simp [hphase]), if_pos hc]

theorem legalBpp_iff {b : BitVec 4} : legalBpp b = true ↔ b.toNat ∈ [1, 2, 4, 8] := by
  revert b; decide

theorem legalBpp_eq_false_iff {b : BitVec 4} : legalBpp b = false ↔ b.toNat ∉ [1, 2, 4, 8] := by
  rw [← legalBpp_iff, Bool.not_eq_true]

/-- The fields of a word from its number: the 256 words of each value of `op` lie together (R62). -/
theorem fields_of_toNat {w : CmdWord} {o : BitVec 2} (h : w.toNat / 256 = o.toNat) :
    opOf w = o ∧ (argOf w).toNat = w.toNat % 256 := by
  have hw := toNat_eq_fields w
  have ha := (argOf w).isLt
  exact ⟨BitVec.eq_of_toNat_eq (by omega), by omega⟩

/-- The sixteen words of START with no reserved bit, whose number is the `bpp` field (R62 d). -/
theorem decode_of_lt_sixteen {w : CmdWord} (h : w.toNat < 16) :
    decode w = .ok (.start (argOf w)) ∧ startBitsClear (argOf w) = true ∧ (bppField (argOf w)).toNat = w.toNat := by
  obtain ⟨hop, harg⟩ := fields_of_toNat (o := 0b00#2) (show w.toNat / 256 = 0 by omega)
  have hbits : startBitsClear (argOf w) = true := startBitsClear_iff.2 (by omega)
  exact ⟨decode_start rfl hop hbits, hbits, by rw [toNat_bppField]; omega⟩

/-- Settles O5: the ranges of the words are the values of the two fields, and each either decodes to a command whose
checks it meets or takes the fault entry of the first check it fails. -/
theorem everyWordIsCommandOrFault : Obligations.EveryWordIsCommandOrFault := by
  intro s w rest hphase hinputs
  have hstep : step s = acceptWord w { s with inputs := rest } :=
    (step_eq_stepAccepting hphase).trans (stepAccepting_eq_acceptWord hinputs)
  have hexec {i : Instr} (hi : decode w = .ok i) : step s = exec i { s with inputs := rest } :=
    stepRunsDecodedCommand s w rest i hphase hinputs hi
  have hw := w.isLt
  have hop {o : BitVec 2} (h : w.toNat / 256 = o.toNat) : opOf w = o := (fields_of_toNat h).1
  have harg {o : BitVec 2} (h : w.toNat / 256 = o.toNat) : (argOf w).toNat = w.toNat % 256 := (fields_of_toNat h).2
  refine ⟨fun h => ?reserved, fun h h' => ?startBits, fun h h' => ?endBits, fun h hmem => ?illegalBpp,
    fun hmem => ?start, fun h h' => ?sym, fun h => ?endFrame⟩
  case reserved =>
    have ho : w.toNat / 256 = (0b11#2).toNat := show _ = 3 by omega
    rw [hexec (decode_reserved rfl (hop ho))]
    exact reservedRaisesIllegalCommand _ _ hphase
  case startBits =>
    have ho : w.toNat / 256 = (0b00#2).toNat := show _ = 0 by omega
    have hbits : startBitsClear (argOf w) = false :=
      Bool.eq_false_iff.2 (mt startBitsClear_iff.1 (by rw [harg ho]; omega))
    rw [hstep]
    exact acceptWord_of_decode_error (decode_startReservedBits rfl (hop ho) hbits) hphase
  case endBits =>
    have ho : w.toNat / 256 = (0b10#2).toNat := show _ = 2 by omega
    have hbits : endBitsClear (argOf w) = false := beq_eq_false_iff_ne.2 fun h0 => by
      have := harg ho
      rw [h0, BitVec.toNat_zero] at this
      omega
    rw [hstep]
    exact acceptWord_of_decode_error (decode_endReservedBits rfl (hop ho) hbits) hphase
  case illegalBpp =>
    obtain ⟨hdecode, hbits, hbpp⟩ := decode_of_lt_sixteen h
    rw [hexec hdecode]
    exact exec_start_illegalBpp (s := { s with inputs := rest }) hphase hbits
      (legalBpp_eq_false_iff.2 (hbpp.symm ▸ hmem))
  case start =>
    have hlt : w.toNat < 16 := by simp only [List.mem_cons, List.not_mem_nil, or_false] at hmem; omega
    obtain ⟨hdecode, -, hbpp⟩ := decode_of_lt_sixteen hlt
    exact ⟨hdecode, legalBpp_iff.2 (hbpp.symm ▸ hmem)⟩
  case sym =>
    have ho : w.toNat / 256 = (0b01#2).toNat := show _ = 1 by omega
    have hsym := decode_sym rfl (hop ho)
    refine ⟨hsym, fun hrun hrange => ?_⟩
    rw [hexec hsym]
    exact exec_sym_outOfRange (s := { s with inputs := rest }) hrun (decide_eq_false (Nat.not_lt.2 hrange))
  case endFrame =>
    have ho : w.toNat / 256 = (0b10#2).toNat := show _ = 2 by omega
    have hzero : argOf w = 0#8 := BitVec.eq_of_toNat_eq (by rw [harg ho, h]; rfl)
    exact decode_endFrame hzero (hop ho) rfl

end Sys2Proof.Machine

/-! SUPPORT. The sub-block framing (43_subblock.md): statement O48 of 30_encoding.md (R67), and the framing as what the
buffer does to a run of bytes. -/

namespace Sys2Proof.Machine

@[simp] theorem dataBlocks_nil (n : Nat) : dataBlocks n [] = [] := by cases n <;> rfl

/-- A last block: what fits one block is one block (R67). -/
theorem dataBlocks_last {n : Nat} {payload : List Byte} (h0 : payload ≠ []) (h : payload.length ≤ Config.bufCap) :
    dataBlocks (n + 1) payload = BitVec.ofNat 8 payload.length :: payload := by
  rw [dataBlocks, if_neg h0, List.take_of_length_le h, List.drop_of_length_le h, dataBlocks_nil, List.append_nil]

/-- A full block, and the blocks of what follows it (R67). -/
theorem dataBlocks_full {n : Nat} {block payload : List Byte} (h : block.length = Config.bufCap) :
    dataBlocks (n + 1) (block ++ payload) = 0xFF#8 :: (block ++ dataBlocks n payload) := by
  have h0 : block ++ payload ≠ [] := List.append_ne_nil_of_left_ne_nil (List.ne_nil_of_length_pos (h ▸ by decide)) _
  rw [dataBlocks, if_neg h0, ← h, List.take_left, List.drop_left, h]

/-- Induction over the blocks of a payload: no block, one block that is not full, a full block before the rest. The
number bounds the blocks, as it does in `dataBlocks`. -/
theorem blocks_induction {P : (k : Nat) → (payload : List Byte) → payload.length ≤ k → Prop}
    (nil : ∀ k, P k [] k.zero_le)
    (last : ∀ k payload (h : payload.length ≤ k + 1), payload ≠ [] → payload.length < Config.bufCap →
      P (k + 1) payload h)
    (full : ∀ k block payload (h : payload.length ≤ k) (h' : (block ++ payload).length ≤ k + 1),
      block.length = Config.bufCap → P k payload h → P (k + 1) (block ++ payload) h')
    (k : Nat) (payload : List Byte) (h : payload.length ≤ k) : P k payload h := by
  induction k generalizing payload with
  | zero =>
    obtain rfl := List.eq_nil_of_length_eq_zero (Nat.le_zero.1 h)
    exact nil 0
  | succ k ih =>
    by_cases h0 : payload = []
    · subst h0; exact nil _
    by_cases hlt : payload.length < Config.bufCap
    · exact last k payload h h0 hlt
    obtain ⟨block, rest, rfl, hblock⟩ : ∃ block rest, payload = block ++ rest ∧ block.length = Config.bufCap :=
      ⟨_, _, (List.take_append_drop Config.bufCap payload).symm, List.length_take_of_le (Nat.not_lt.1 hlt)⟩
    have hrest : rest.length ≤ k := by
      rw [List.length_append, hblock] at h
      simp only [Config.bufCap] at h
      omega
    exact full k block rest hrest h hblock (ih rest hrest)

theorem dataBlocks_length {k : Nat} {payload : List Byte} (h : payload.length ≤ k) :
    (dataBlocks k payload).length = payload.length + (payload.length + 254) / 255 := by
  induction k, payload, h using blocks_induction with
  | nil k => rw [dataBlocks_nil]; rfl
  | last k payload _ h0 hlt =>
    have hpos := List.length_pos_of_ne_nil h0
    rw [dataBlocks_last h0 hlt.le, List.length_cons]
    simp only [Config.bufCap] at hlt
    omega
  | full k block payload _ _ hblock ih =>
    rw [dataBlocks_full hblock, List.length_cons, List.length_append, List.length_append, ih, hblock]
    simp only [Config.bufCap]
    omega

/-- Taking a block apart: its length byte says how much is its own (R67). -/
theorem unframe_block {n : Nat} {len : Byte} {block rest payload after : List Byte} (hlen : len.toNat = block.length)
    (h0 : block ≠ []) (h : unframe n rest = some (payload, after)) :
    unframe (n + 1) (len :: (block ++ rest)) = some (block ++ payload, after) := by
  have hne : len ≠ 0x00#8 := fun he => h0 (List.eq_nil_of_length_eq_zero (by rw [← hlen, he]; rfl))
  have hroom : ¬ (block ++ rest).length < block.length := by simp
  rw [unframe, if_neg hne, hlen, if_neg hroom, List.drop_left, List.take_left, h]
  rfl

theorem unframe_terminator (n : Nat) (rest : List Byte) : unframe (n + 1) (0x00#8 :: rest) = some ([], rest) := rfl

theorem unframe_dataBlocks {k n : Nat} {payload : List Byte} (h : payload.length ≤ k) (hn : payload.length < n)
    (rest : List Byte) : unframe n (dataBlocks k payload ++ 0x00#8 :: rest) = some (payload, rest) := by
  induction k, payload, h using blocks_induction generalizing n with
  | nil k =>
    obtain ⟨n, rfl⟩ : ∃ m, n = m + 1 := ⟨n - 1, by rw [List.length_nil] at hn; omega⟩
    rw [dataBlocks_nil]
    exact unframe_terminator n rest
  | last k payload _ h0 hlt =>
    have hpos := List.length_pos_of_ne_nil h0
    obtain ⟨n, rfl⟩ : ∃ m, n = m + 2 := ⟨n - 2, by omega⟩
    have hlen : (BitVec.ofNat 8 payload.length).toNat = payload.length := by
      rw [BitVec.toNat_ofNat, Nat.mod_eq_of_lt]
      simp only [Config.bufCap] at hlt
      omega
    rw [dataBlocks_last h0 hlt.le, List.cons_append,
      unframe_block hlen h0 (unframe_terminator n rest), List.append_nil]
  | full k block payload _ _ hblock ih =>
    rw [List.length_append, hblock] at hn
    simp only [Config.bufCap] at hn
    obtain ⟨n, rfl⟩ : ∃ m, n = m + 1 := ⟨n - 1, by omega⟩
    have h0 : block ≠ [] := List.ne_nil_of_length_pos (hblock ▸ by decide)
    rw [dataBlocks_full hblock, List.cons_append, List.append_assoc]
    exact unframe_block hblock.symm h0 (ih (by omega))

/-- Settles O48, by induction over the blocks: each one's length byte gives it back, and adds one to the length. -/
theorem unframeRecoversPayload : Obligations.UnframeRecoversPayload := by
  intro payload rest n hn
  constructor
  · rw [frameBytes, List.append_assoc]
    exact unframe_dataBlocks le_rfl hn rest
  · rw [frameBytes, List.length_append, dataBlocks_length le_rfl]
    rfl

/-! The framing as the work of the buffer (R120 to R122) -/

/-- Bytes that do not fill the buffer are held. -/
theorem foldl_pushByte_room {out held bytes : List Byte} (h : held.length + bytes.length < Config.bufCap) :
    bytes.foldl pushByte (out, held) = (out, held ++ bytes) := by
  induction bytes generalizing held with
  | nil => rw [List.foldl_nil, List.append_nil]
  | cons b bytes ih =>
    rw [List.length_cons] at h
    have hpush : pushByte (out, held) b = (out, held ++ [b]) := if_neg (show ¬ held.length + 1 = _ by omega)
    have hroom : (held ++ [b]).length + bytes.length < Config.bufCap := by
      rw [List.length_append, List.length_singleton]; omega
    rw [List.foldl_cons, hpush, ih hroom, List.append_assoc, List.singleton_append]

/-- The bytes of a full block leave an empty buffer as that block. -/
theorem foldl_pushByte_full {out block : List Byte} (h : block.length = Config.bufCap) :
    block.foldl pushByte (out, []) = (out ++ 0xFF#8 :: block, []) := by
  obtain ⟨held, b, rfl⟩ : ∃ held b, block = held ++ [b] :=
    ⟨_, _, (List.dropLast_append_getLast (List.ne_nil_of_length_pos (h ▸ by decide))).symm⟩
  rw [List.length_append, List.length_singleton] at h
  have hroom : ([] : List Byte).length + held.length < Config.bufCap := by rw [List.length_nil]; omega
  rw [List.foldl_append, foldl_pushByte_room hroom, List.nil_append, List.foldl_cons, List.foldl_nil, pushByte, if_pos h]

/-- The blocks of a payload are what the buffer lets out of it, and the last is what the close lets out. -/
theorem closeStream_foldl_dataBlocks {k : Nat} {payload : List Byte} (h : payload.length ≤ k) (out : List Byte) :
    closeStream (payload.foldl pushByte (out, [])) = out ++ (dataBlocks k payload ++ [0x00#8]) := by
  induction k, payload, h using blocks_induction generalizing out with
  | nil k => simp [closeStream]
  | last k payload _ h0 hlt =>
    rw [foldl_pushByte_room (by rwa [List.length_nil, Nat.zero_add]), dataBlocks_last h0 hlt.le]
    simp [closeStream, h0]
  | full k block payload _ _ hblock ih =>
    rw [List.foldl_append, foldl_pushByte_full hblock, ih, dataBlocks_full hblock]
    simp

/-- A payload pushed byte by byte into an empty buffer, then closed, leaves as its framing (R67, R120 to R122). -/
theorem closeStream_foldl_pushByte (out payload : List Byte) :
    closeStream (payload.foldl pushByte (out, [])) = out ++ frameBytes payload :=
  closeStream_foldl_dataBlocks le_rfl out

end Sys2Proof.Machine

/-! SUPPORT. The abstract algorithm of R84 keeps its variables in range: statement O50 of 30_encoding.md (R63). -/

namespace Sys2Proof.Machine

/-! One symbol of the abstract algorithm (R84) -/

section
variable {b : BitVec 4} {f : FrameState} {c : Nat}

theorem frameSymbol_hit {v : Nat} (h : f.map.lookup (f.code, c) = some v) :
    frameSymbol b f c = ({ f with code := v }, []) := by
  rw [frameSymbol, h]

theorem frameSymbol_enter (h : f.map.lookup (f.code, c) = none) (hfree : f.free < Config.maxMaxCode) :
    frameSymbol b f c =
      ({ map := ((f.code, c), f.free) :: f.map, free := f.free + 1, width := widen f.free f.width, code := c },
        [(f.code, f.width)]) := by
  rw [frameSymbol, h]
  exact if_pos hfree

theorem frameSymbol_restart (h : f.map.lookup (f.code, c) = none) (hfree : ¬ f.free < Config.maxMaxCode) :
    frameSymbol b f c =
      ({ map := [], free := firstCode b, width := ics b + 1, code := c },
        [(f.code, f.width), (clearCode b, widen f.free f.width)]) := by
  rw [frameSymbol, h]
  exact if_neg hfree

end

/-- A symbol of the palette is legal as the code so far, in any table of the frame (R24 item 5). -/
theorem legalPrefix_symbol {b : BitVec 4} (hb : legalBpp b = true) {free c : Nat} (hfree : firstCode b ≤ free)
    (hc : c < 2 ^ b.toNat) : legalPrefix b free c := by
  obtain ⟨-, -, -, -, hpal, -⟩ := legalBpp_bounds hb
  simp only [legalPrefix, eofCode_eq, firstCode_eq] at *
  omega

/-- An assigned code is legal as the code so far (R24 item 5). -/
theorem legalPrefix_assigned {b : BitVec 4} {free v : Nat} (hlo : firstCode b ≤ v) (hhi : v < free) :
    legalPrefix b free v := by
  simp only [legalPrefix, eofCode_eq, firstCode_eq] at *
  omega

/-- What holds of the variables of R84 before each symbol: the abstract image of items 2 to 5 and 9 of R24. -/
structure FrameInv (b : BitVec 4) (f : FrameState) : Prop where
  width : ics b + 1 ≤ f.width ∧ f.width ≤ Config.maxBits
  free : firstCode b ≤ f.free ∧ f.free ≤ Config.maxMaxCode
  fits : f.free ≤ 2 ^ f.width
  code : legalPrefix b f.free f.code
  map : ∀ p v, f.map.lookup p = some v → firstCode b ≤ v ∧ v < f.free

/-- An empty map at the first width, with a symbol as the code so far: after START's first symbol, and after a clear. -/
theorem frameInv_restart {b : BitVec 4} (hb : legalBpp b = true) {c : Nat} (hc : c < 2 ^ b.toNat) :
    FrameInv b { map := [], free := firstCode b, width := ics b + 1, code := c } := by
  obtain ⟨-, hics, hclear, hclear', -, hpow⟩ := legalBpp_bounds hb
  refine ⟨⟨le_rfl, by simp only [Config.maxBits]; omega⟩, ⟨le_rfl, ?_⟩, ?_, legalPrefix_symbol hb le_rfl hc,
    fun _ _ h => nomatch h⟩
  · simp only [firstCode_eq, Config.maxMaxCode]; omega
  · simp only [firstCode_eq]; omega

/-- A miss with room: the next code is entered in the map, and the width makes room for the one after it (R112). -/
theorem frameInv_enter {b : BitVec 4} (hb : legalBpp b = true) {f : FrameState} (h : FrameInv b f) {c : Nat}
    (hc : c < 2 ^ b.toNat) (hfree : f.free < Config.maxMaxCode) :
    FrameInv b
      { map := ((f.code, c), f.free) :: f.map, free := f.free + 1, width := widen f.free f.width, code := c } := by
  obtain ⟨hlo, hhi⟩ := widen_bounds (free := f.free) h.width.2
  have hfirst : firstCode b ≤ f.free + 1 := h.free.1.trans (Nat.le_succ _)
  refine ⟨⟨h.width.1.trans hlo, hhi⟩, ⟨hfirst, hfree⟩, widen_fits h.fits hfree, legalPrefix_symbol hb hfirst hc, ?_⟩
  intro p v hv
  rw [List.lookup_cons] at hv
  split at hv
  · cases hv
    exact ⟨h.free.1, Nat.lt_succ_self _⟩
  · obtain ⟨h1, h2⟩ := h.map p v hv
    exact ⟨h1, Nat.lt_succ_of_lt h2⟩

theorem frameInv_frameSymbol {b : BitVec 4} (hb : legalBpp b = true) {f : FrameState} (h : FrameInv b f) {c : Nat}
    (hc : c < 2 ^ b.toNat) : FrameInv b (frameSymbol b f c).1 := by
  cases hl : f.map.lookup (f.code, c) with
  | some v =>
    obtain ⟨hlo, hhi⟩ := h.map _ _ hl
    rw [frameSymbol_hit hl]
    exact ⟨h.width, h.free, h.fits, legalPrefix_assigned hlo hhi, h.map⟩
  | none =>
    by_cases hfree : f.free < Config.maxMaxCode
    · rw [frameSymbol_enter hl hfree]
      exact frameInv_enter hb h hc hfree
    · rw [frameSymbol_restart hl hfree]
      exact frameInv_restart hb hc

/-! The codes of a frame (R63) -/

/-- A code fits its width, the width is one of the frame's, and the code is of one of the four kinds (R63). -/
def LegalEmitted (b : BitVec 4) (x : Emitted) : Prop :=
  x.1 < 2 ^ x.2 ∧ ics b + 1 ≤ x.2 ∧ x.2 ≤ 12 ∧
    (x.1 < 2 ^ b.toNat ∨ x.1 = clearCode b ∨ x.1 = eofCode b ∨ firstCode b ≤ x.1)

theorem FrameInv.legalEmitted {b : BitVec 4} {f : FrameState} (h : FrameInv b f) :
    LegalEmitted b (f.code, f.width) := by
  obtain ⟨hlt, -, -, hkind⟩ := h.code
  exact ⟨hlt.trans_le h.fits, h.width.1, h.width.2, hkind.imp_right fun hk => .inr (.inr hk)⟩

theorem legalEmitted_clearCode {b : BitVec 4} (hb : legalBpp b = true) {w : Nat}
    (hw : ics b + 1 ≤ w ∧ w ≤ Config.maxBits) : LegalEmitted b (clearCode b, w) := by
  obtain ⟨-, -, hfit, -⟩ := reservedCodes_fit hb hw.1
  exact ⟨hfit, hw.1, hw.2, .inr (.inl rfl)⟩

theorem legalEmitted_eofCode {b : BitVec 4} (hb : legalBpp b = true) {w : Nat}
    (hw : ics b + 1 ≤ w ∧ w ≤ Config.maxBits) : LegalEmitted b (eofCode b, w) := by
  obtain ⟨-, -, -, hfit⟩ := reservedCodes_fit hb hw.1
  exact ⟨hfit, hw.1, hw.2, .inr (.inr (.inl rfl))⟩

/-- The width after one more code is one of the frame's. -/
theorem FrameInv.widen {b : BitVec 4} {f : FrameState} (h : FrameInv b f) :
    ics b + 1 ≤ widen f.free f.width ∧ widen f.free f.width ≤ Config.maxBits := by
  obtain ⟨hlo, hhi⟩ := widen_bounds (free := f.free) h.width.2
  exact ⟨h.width.1.trans hlo, hhi⟩

theorem frameSymbol_legalEmitted {b : BitVec 4} (hb : legalBpp b = true) {f : FrameState} (h : FrameInv b f) (c : Nat) :
    ∀ x ∈ (frameSymbol b f c).2, LegalEmitted b x := by
  cases hl : f.map.lookup (f.code, c) with
  | some v => simp [frameSymbol_hit hl]
  | none =>
    by_cases hfree : f.free < Config.maxMaxCode
    · simpa [frameSymbol_enter hl hfree] using h.legalEmitted
    · simpa [frameSymbol_restart hl hfree] using ⟨h.legalEmitted, legalEmitted_clearCode hb h.widen⟩

theorem frameSymbols_legalEmitted {b : BitVec 4} (hb : legalBpp b = true) {cs : List (BitVec 8)}
    (hcs : ∀ c ∈ cs, c.toNat < 2 ^ b.toNat) {f : FrameState} (h : FrameInv b f) :
    FrameInv b (frameSymbols b f cs).1 ∧ ∀ x ∈ (frameSymbols b f cs).2, LegalEmitted b x := by
  induction cs generalizing f with
  | nil => exact ⟨h, fun _ hx => nomatch hx⟩
  | cons c cs ih =>
    obtain ⟨hc, hcs⟩ := List.forall_mem_cons.1 hcs
    obtain ⟨hinv, hrest⟩ := ih hcs (frameInv_frameSymbol hb h hc)
    exact ⟨hinv, List.forall_mem_append.2 ⟨frameSymbol_legalEmitted hb h _, hrest⟩⟩

/-- The parts of a legal frame: `bpp`, the first symbol, the others (R83). -/
theorem LegalFrame.cons {b : BitVec 4} {c : BitVec 8} {cs : List (BitVec 8)} (h : LegalFrame b (c :: cs)) :
    legalBpp b = true ∧ c.toNat < 2 ^ b.toNat ∧ ∀ c ∈ cs, c.toNat < 2 ^ b.toNat := by
  obtain ⟨hb, -, hcs⟩ := h
  obtain ⟨hc, hcs⟩ := List.forall_mem_cons.1 hcs
  exact ⟨hb, of_decide_eq_true hc, fun x hx => of_decide_eq_true (hcs x hx)⟩

/-- Settles O50: the variables of R84 stay in range over the symbols, so each code emitted is legal. -/
theorem frameCodesFitTheirWidth : Obligations.FrameCodesFitTheirWidth := by
  intro b c cs hframe
  obtain ⟨hb, hc, hcs⟩ := hframe.cons
  have hstart : FrameInv b (frameStart b c) := frameInv_restart hb hc
  obtain ⟨hend, hcodes⟩ := frameSymbols_legalEmitted hb hcs hstart
  have hclear := legalEmitted_clearCode hb hstart.width
  have hclose : ∀ x ∈ frameEnd b (frameSymbols b (frameStart b c) cs).1, LegalEmitted b x := by
    simpa [frameEnd] using ⟨hend.legalEmitted, legalEmitted_eofCode hb hend.widen⟩
  exact List.forall_mem_append.2 ⟨List.forall_mem_cons.2 ⟨hclear, hcodes⟩, hclose⟩

end Sys2Proof.Machine

/-! SUPPORT. The codes of a frame in groups: statement O51 of 30_encoding.md (R64, R66). -/

namespace Sys2Proof.Machine

/-- A data code: neither `CLEAR` nor `EOFC` (R64). -/
def IsDataCode (b : BitVec 4) (k : Nat) : Prop := k ≠ clearCode b ∧ k ≠ eofCode b

/-- Groups of data codes as R64 has them: none is empty, and all but the last are as long as the table allows. -/
structure CodeGroups (b : BitVec 4) (groups : List (List Nat)) : Prop where
  nonempty : groups ≠ []
  data : ∀ g ∈ groups, g ≠ [] ∧ ∀ k ∈ g, IsDataCode b k
  full : ∀ g ∈ groups.dropLast, g.length = 4096 - firstCode b + 1

/-- The codes of the groups, each led by `CLEAR`. -/
def groupCodes (b : BitVec 4) (groups : List (List Nat)) : List Nat := groups.flatMap fun g => clearCode b :: g

theorem codeGroups_singleton {b : BitVec 4} {g : List Nat} (h0 : g ≠ []) (hg : ∀ k ∈ g, IsDataCode b k) :
    CodeGroups b [g] :=
  ⟨List.cons_ne_nil _ _, List.forall_mem_singleton.2 ⟨h0, hg⟩, fun _ h => nomatch h⟩

theorem codeGroups_cons {b : BitVec 4} {g : List Nat} {groups : List (List Nat)} (hg : ∀ k ∈ g, IsDataCode b k)
    (hlen : g.length = 4096 - firstCode b + 1) (h : CodeGroups b groups) : CodeGroups b (g :: groups) := by
  have h0 : g ≠ [] := List.ne_nil_of_length_pos (by omega)
  refine ⟨List.cons_ne_nil _ _, List.forall_mem_cons.2 ⟨⟨h0, hg⟩, h.data⟩, ?_⟩
  rw [List.dropLast_cons_of_ne_nil h.nonempty]
  exact List.forall_mem_cons.2 ⟨hlen, h.full⟩

theorem FrameInv.isDataCode {b : BitVec 4} {f : FrameState} (h : FrameInv b f) : IsDataCode b f.code := by
  obtain ⟨-, hclear, heof, -⟩ := h.code
  exact ⟨hclear, heof⟩

/-- The data codes `g` emitted since the last `CLEAR`, of which the table counts one entry each, the codes the symbols
make the frame emit, and the code left at the end, make groups. -/
theorem frameSymbols_groups {b : BitVec 4} (hb : legalBpp b = true) {cs : List (BitVec 8)}
    (hcs : ∀ c ∈ cs, c.toNat < 2 ^ b.toNat) {f : FrameState} (h : FrameInv b f) {g : List Nat}
    (hg : ∀ k ∈ g, IsDataCode b k) (hlen : g.length = f.free - firstCode b) :
    ∃ groups, CodeGroups b groups ∧
      clearCode b :: (g ++ (frameSymbols b f cs).2.map Prod.fst ++ [(frameSymbols b f cs).1.code]) =
        groupCodes b groups := by
  have hsnoc {f : FrameState} (h : FrameInv b f) {g : List Nat} (hg : ∀ k ∈ g, IsDataCode b k) :
      ∀ k ∈ g ++ [f.code], IsDataCode b k := List.forall_mem_append.2 ⟨hg, List.forall_mem_singleton.2 h.isDataCode⟩
  induction cs generalizing f g with
  | nil => exact ⟨[g ++ [f.code]], codeGroups_singleton (by simp) (hsnoc h hg), by simp [groupCodes, frameSymbols]⟩
  | cons c cs ih =>
    obtain ⟨hc, hcs⟩ := List.forall_mem_cons.1 hcs
    have hnext := frameInv_frameSymbol hb h hc
    obtain ⟨hfirst, hmax⟩ := h.free
    simp only [frameSymbols]
    cases hl : f.map.lookup (f.code, c.toNat) with
    | some v =>
      rw [frameSymbol_hit hl] at hnext ⊢
      exact ih hcs hnext hg hlen
    | none =>
      by_cases hfree : f.free < Config.maxMaxCode
      · rw [frameSymbol_enter hl hfree] at hnext ⊢
        have hlen' : (g ++ [f.code]).length = f.free + 1 - firstCode b := by
          rw [List.length_append, hlen, List.length_singleton]; omega
        simpa using ih hcs hnext (hsnoc h hg) hlen'
      · rw [frameSymbol_restart hl hfree] at hnext ⊢
        obtain ⟨groups, hgroups, heq⟩ := ih hcs hnext (g := []) (fun _ h => nomatch h) (by simp)
        have hlen' : (g ++ [f.code]).length = 4096 - firstCode b + 1 := by
          simp only [Config.maxMaxCode] at hfree hmax
          rw [List.length_append, hlen, List.length_singleton]; omega
        refine ⟨(g ++ [f.code]) :: groups, codeGroups_cons (hsnoc h hg) hlen' hgroups, ?_⟩
        rw [groupCodes, List.flatMap_cons, ← groupCodes, ← heq]
        simp

/-- Codes of at least `w` bits each make a stream of at least `w` bits for each of them. -/
theorem streamLength_ge {codes : List Emitted} {w : Nat} (h : ∀ x ∈ codes, w ≤ x.2) :
    codes.length * w ≤ streamLength codes := by
  induction codes with
  | nil => simp
  | cons x codes ih =>
    obtain ⟨hx, hcodes⟩ := List.forall_mem_cons.1 h
    have := ih hcodes
    rw [List.length_cons, Nat.succ_mul, streamLength]
    omega

theorem payloadOf_length (codes : List Emitted) : (payloadOf codes).length = (streamLength codes + 7) / 8 :=
  bytesOf_length _ _

theorem frameCodes_length (b : BitVec 4) (c : BitVec 8) (cs : List (BitVec 8)) : 3 ≤ (frameCodes b c cs).length := by
  simp [frameCodes, frameEnd]

/-- Settles O51: the symbols make groups of the codes after the first `CLEAR`, and a frame has at least three codes of
at least three bits. -/
theorem frameCodesGrammar : Obligations.FrameCodesGrammar := by
  intro b c cs hframe
  obtain ⟨hb, hc, hcs⟩ := hframe.cons
  have hstart : FrameInv b (frameStart b c) := frameInv_restart hb hc
  obtain ⟨groups, hgroups, heq⟩ :=
    frameSymbols_groups hb hcs hstart (g := []) (fun _ h => nomatch h) (by simp [frameStart])
  have hwidth : ∀ x ∈ frameCodes b c cs, 3 ≤ x.2 := fun x hx => by
    obtain ⟨-, hw, -⟩ := frameCodesFitTheirWidth b c cs hframe x hx
    have := legalBpp_bounds hb
    omega
  refine ⟨groups, hgroups.nonempty, hgroups.data, hgroups.full, ?_, ?_⟩
  · rw [← groupCodes, ← heq]
    simp [frameCodes, frameEnd]
  · have hbits := streamLength_ge hwidth
    have hcount := frameCodes_length b c cs
    rw [payloadOf_length]
    omega

end Sys2Proof.Machine

/-! SUPPORT. The machine follows the abstract algorithm: statement O46 of 40_commands.md (R84, with R43 and R67). -/

namespace Sys2Proof.Machine

/-! The stream of the codes emitted so far (R43) -/

theorem streamLength_append (xs ys : List Emitted) :
    streamLength (xs ++ ys) = streamLength xs + streamLength ys := by
  induction xs with
  | nil => exact (Nat.zero_add _).symm
  | cons x xs ih => rw [List.cons_append, streamLength, streamLength, ih, Nat.add_assoc]

theorem streamValue_append (xs ys : List Emitted) :
    streamValue (xs ++ ys) = streamValue xs + streamValue ys * 2 ^ streamLength xs := by
  induction xs with
  | nil => simp [streamValue, streamLength]
  | cons x xs ih =>
    rw [List.cons_append, streamValue, streamValue, streamLength, ih, pow_add]
    ring

/-- The machine has packed `codes` since it had output `start` and its buffer was empty: the whole bytes have gone
through the buffer, the bits left over wait in the accumulator (R43, R110). -/
structure Packed (start : List Byte) (codes : List Emitted) (s : State) : Prop where
  stream : streamOf s = (bytesOf (streamValue codes) (streamLength codes / 8)).foldl pushByte (start, [])
  acc : s.acc.toNat = streamValue codes / 256 ^ (streamLength codes / 8)
  curBits : s.curBits.toNat = streamLength codes % 8

theorem packed_beginFrame (b : BitVec 4) (s : State) : Packed s.out [] (beginFrame b s) :=
  ⟨rfl, by simp [streamValue], rfl⟩

/-- Emitting one more code at the width in force packs it after the codes before it (R110). -/
theorem Packed.emit {start : List Byte} {codes : List Emitted} {s t : State} {k : Nat} (h : Packed start codes s)
    (hstream : Streamed (bytesOf (emitValue s k) (emitBits s / 8)) s t)
    (hacc : t.acc.toNat = emitValue s k / 256 ^ (emitBits s / 8)) (hbits : t.curBits.toNat = emitBits s % 8) :
    Packed start (codes ++ [(k, s.nBits.toNat)]) t := by
  have hvalue : streamValue (codes ++ [(k, s.nBits.toNat)]) = streamValue codes + k * 2 ^ streamLength codes := by
    rw [streamValue_append]; simp [streamValue]
  have hlength : streamLength (codes ++ [(k, s.nBits.toNat)]) = streamLength codes + s.nBits.toNat := by
    rw [streamLength_append]; simp [streamLength]
  rw [emitValue, emitBits, h.acc, h.curBits] at hstream hacc
  rw [emitBits, h.curBits] at hbits
  refine ⟨?_, ?_, ?_⟩
  · rw [hstream.stream, h.stream, ← List.foldl_append, bytesOf_two, hvalue, hlength]
  · rw [hacc, rest_two, hvalue, hlength]
  · rw [hbits, hlength]; omega

/-- The last two codes and the padding of the partial byte complete the payload (R43, R82, R113). -/
theorem Packed.finish {start : List Byte} {codes : List Emitted} {s u : State} (h : Packed start codes s)
    (hstream : Streamed (bytesOf (endValue s) (endBytes s)) s u) :
    streamOf u =
      (payloadOf (codes ++ [(s.ent.toNat, s.nBits.toNat), (eofCode s.bpp, nextWidth s)])).foldl pushByte
        (start, []) := by
  have hvalue : streamValue (codes ++ [(s.ent.toNat, s.nBits.toNat), (eofCode s.bpp, nextWidth s)]) =
      streamValue codes + (s.ent.toNat + eofCode s.bpp * 2 ^ s.nBits.toNat) * 2 ^ streamLength codes := by
    rw [streamValue_append]; simp [streamValue, Nat.mul_comm]
  have hlength : streamLength (codes ++ [(s.ent.toNat, s.nBits.toNat), (eofCode s.bpp, nextWidth s)]) =
      streamLength codes + (s.nBits.toNat + nextWidth s) := by
    rw [streamLength_append]; simp [streamLength]
  have hend : endValue s = streamValue codes / 256 ^ (streamLength codes / 8) +
      (s.ent.toNat + eofCode s.bpp * 2 ^ s.nBits.toNat) * 2 ^ (streamLength codes % 8) := by
    rw [endValue, emitValue, emitBits, h.acc, h.curBits, pow_add]
    ring
  have hbytes : endBytes s = (streamLength codes % 8 + (s.nBits.toNat + nextWidth s + 7)) / 8 := by
    rw [endBytes, emitBits, h.curBits]; omega
  rw [hstream.stream, h.stream, ← List.foldl_append, hend, hbytes, bytesOf_two, payloadOf, hvalue, hlength,
    ← Nat.add_assoc (streamLength codes)]

/-! The table as the map of R84 (R105) -/

/-- The abstract map and the table hold the same pairs. -/
def MapAgrees (tbl : List (Nat × HtEntry)) (map : List ((Nat × Nat) × Nat)) : Prop :=
  ∀ (e : BitVec 12) (c : BitVec 8) (v : Nat),
    map.lookup (e.toNat, c.toNat) = some v ↔ ∃ code, tableMaps tbl e c code ∧ code.toNat = v

theorem mapAgrees_empty {tbl : List (Nat × HtEntry)} (h : liveEntries tbl = []) : MapAgrees tbl [] := by
  intro e c v
  simp [tableMaps, h]

/-- A live entry's key names the pair it maps. -/
theorem tableMaps_iff_key {tbl : List (Nat × HtEntry)} {e : BitVec 12} {c : BitVec 8} {code : BitVec 12} :
    tableMaps tbl e c code ↔ ∃ x ∈ liveEntries tbl, x.2.key = keyOf e c ∧ x.2.code = code := by
  refine exists_congr fun x => and_congr_right fun _ => ?_
  constructor
  · rintro ⟨rfl, rfl, hcode⟩
    exact ⟨(keyOf_fields _).symm, hcode⟩
  · rintro ⟨hkey, hcode⟩
    rw [hkey]
    exact ⟨keyPrefix_keyOf e c, keySymbol_keyOf e c, hcode⟩

/-- Insert where Probe missed adds exactly the one pair to the table's map (R103, R105). -/
theorem tableMaps_write {tbl : List (Nat × HtEntry)} {i : Nat} {e : BitVec 12} {c : BitVec 8} {v : BitVec 12}
    (h : probeTable tbl e c = .ok (false, i)) {e' : BitVec 12} {c' : BitVec 8} {v' : BitVec 12} :
    tableMaps (Memory.write tbl i { valid := true, key := keyOf e c, code := v }) e' c' v' ↔
      (e' = e ∧ c' = c ∧ v' = v) ∨ tableMaps tbl e' c' v' := by
  have hperm := liveEntries_write (en := { valid := true, key := keyOf e c, code := v }) rfl
    (lookSlot_eq_empty_iff.1 (probeTable_miss_empty h))
  simp only [tableMaps, hperm.mem_iff, List.mem_cons, exists_eq_or_imp, keyPrefix_keyOf, keySymbol_keyOf]
  exact or_congr_left (by simp only [eq_comm])

/-- Entering the pair Probe missed under `v` in the table and in the map. -/
theorem MapAgrees.insert {tbl : List (Nat × HtEntry)} {map : List ((Nat × Nat) × Nat)} (h : MapAgrees tbl map) {i : Nat}
    {e : BitVec 12} {c : BitVec 8} {v : BitVec 12} (hp : probeTable tbl e c = .ok (false, i))
    (hl : map.lookup (e.toNat, c.toNat) = none) :
    MapAgrees (Memory.write tbl i { valid := true, key := keyOf e c, code := v })
      (((e.toNat, c.toNat), v.toNat) :: map) := by
  intro e' c' w
  simp only [tableMaps_write hp]
  by_cases hpair : e' = e ∧ c' = c
  · obtain ⟨rfl, rfl⟩ := hpair
    have hnone : ∀ code, ¬ tableMaps tbl e' c' code := fun code hcode => by
      have := (h e' c' code.toNat).2 ⟨code, hcode, rfl⟩
      rw [hl] at this
      cases this
    simp [hnone]
  · have hne : ((e'.toNat, c'.toNat) == (e.toNat, c.toNat)) = false := by
      simpa [← BitVec.toNat_eq] using hpair
    have hold : ∀ code, ¬ (e' = e ∧ c' = c ∧ code = v) := fun code hc => hpair ⟨hc.1, hc.2.1⟩
    rw [List.lookup_cons, hne]
    simp only [hold, false_or]
    exact h e' c' w

/-- What Probe answers, in the map: a hit's code is the pair's value, and a miss is a pair the map does not have. -/
theorem MapAgrees.probe {b : BitVec 4} {free : Nat} {tbl : List (Nat × HtEntry)} {map : List ((Nat × Nat) × Nat)}
    (h : MapAgrees tbl map) (hb : legalBpp b = true) (hfree : free ≤ Config.maxMaxCode) (htbl : TableInv b free tbl)
    (e : BitVec 12) (c : BitVec 8) :
    (∃ i en, probeTable tbl e c = .ok (true, i) ∧ Memory.read tbl i = some en ∧
      map.lookup (e.toNat, c.toNat) = some en.code.toNat) ∨
    (∃ i, probeTable tbl e c = .ok (false, i) ∧ map.lookup (e.toNat, c.toNat) = none) := by
  obtain ⟨i, en, hp, hr, hmem, hkey⟩ | ⟨i, hp, hnone⟩ := probeTable_of_inv hb hfree htbl e c
  · exact .inl ⟨i, en, hp, hr, (h e c _).2 ⟨en.code, tableMaps_iff_key.2 ⟨_, hmem, hkey, rfl⟩, rfl⟩⟩
  · refine .inr ⟨i, hp, Option.eq_none_iff_forall_ne_some.2 fun v hv => ?_⟩
    obtain ⟨code, hcode, -⟩ := (h e c v).1 hv
    obtain ⟨x, hx, hkey, -⟩ := tableMaps_iff_key.1 hcode
    exact hnone x hx hkey

/-! The simulation -/

/-- The machine between two symbols holds the variables `f` of R84, has packed `codes`, and its table is the map. -/
structure FrameSim (b : BitVec 4) (start : List Byte) (codes : List Emitted) (f : FrameState) (s : State) : Prop where
  phase : s.phase = .run
  bpp : s.bpp = b
  entValid : s.entValid = true
  clearFlag : s.clearFlag = false
  ent : s.ent.toNat = f.code
  width : s.nBits.toNat = f.width
  free : s.freeEnt.toNat = f.free
  stream : StreamInv s
  packed : Packed start codes s
  table : ∃ tbl, s.ht = some tbl ∧ TableInv b f.free tbl ∧ MapAgrees tbl f.map

theorem FrameSim.emitReady {b : BitVec 4} {start : List Byte} {codes : List Emitted} {f : FrameState} {s : State}
    (h : FrameSim b start codes f s) (hb : legalBpp b = true) (hf : FrameInv b f) : EmitReady s where
  bpp := h.bpp.symm ▸ hb
  width := by rw [h.bpp, h.width]; exact hf.width
  ent := by rw [h.ent, h.width]; exact hf.code.1.trans_le hf.fits
  clearFlag := h.clearFlag
  stream := h.stream

/-- What is still presented does not matter to the simulation. -/
theorem FrameSim.setInputs {b : BitVec 4} {start : List Byte} {codes : List Emitted} {f : FrameState} {s : State}
    (h : FrameSim b start codes f s) (rest : List Input) : FrameSim b start codes f { s with inputs := rest } :=
  ⟨h.phase, h.bpp, h.entValid, h.clearFlag, h.ent, h.width, h.free,
    ⟨⟨h.stream.bufCnt, h.stream.held⟩, h.stream.curBits, h.stream.acc⟩,
    ⟨h.packed.stream, h.packed.acc, h.packed.curBits⟩, h.table⟩

/-! What SYM does to the state on a hit and on a miss (R81) -/

section
variable {s : State} {c : BitVec 8} {tbl : List (Nat × HtEntry)} {i : Nat}

theorem probe_eq_probeTable (hht : s.ht = some tbl) (e : BitVec 12) : probe e c s = probeTable tbl e c := by
  rw [probe, hht]

theorem consumeSymbol_hit {en : HtEntry} (hvalid : s.entValid = true) (hht : s.ht = some tbl)
    (hp : probeTable tbl s.ent c = .ok (true, i)) (hr : Memory.read tbl i = some en) :
    consumeSymbol c s = .ok { s with ent := en.code } := by
  have hcode : slotCode i s = .ok en.code := by rw [slotCode, hht, Option.getD_some, hr]
  rw [consumeSymbol, if_neg (by simp [hvalid]), probe_eq_probeTable hht, hp]
  exact except_map_ok.2 ⟨_, hcode, rfl⟩

theorem consumeSymbol_miss (hvalid : s.entValid = true) (hht : s.ht = some tbl)
    (hp : probeTable tbl s.ent c = .ok (false, i)) : consumeSymbol c s = missSymbol i c s := by
  rw [consumeSymbol, if_neg (by simp [hvalid]), probe_eq_probeTable hht, hp]
  rfl

theorem missSymbol_enter {u : State} (hu : emitCode s.ent s = .ok u) (hfree : u.freeEnt.toNat < Config.maxMaxCode) :
    missSymbol i c s = .ok (restartPrefix c (enterString i c u)) :=
  except_bind_ok.2 ⟨u, hu, except_map_ok.2 ⟨_, if_pos hfree, rfl⟩⟩

theorem missSymbol_restart {u t : State} (hu : emitCode s.ent s = .ok u) (hfree : ¬ u.freeEnt.toNat < Config.maxMaxCode)
    (ht : restartTable u = .ok t) : missSymbol i c s = .ok (restartPrefix c t) :=
  except_bind_ok.2 ⟨u, hu, except_map_ok.2 ⟨t, (if_neg hfree).trans ht, rfl⟩⟩

end

section
variable {b : BitVec 4} {start : List Byte} {codes : List Emitted} {f : FrameState} {s : State} {c : BitVec 8}
  {tbl : List (Nat × HtEntry)} {i : Nat}

/-- A hit (R81, R84). -/
theorem FrameSim.hit (h : FrameSim b start codes f s) {v : BitVec 12} :
    FrameSim b start codes { f with code := v.toNat } { s with ent := v } :=
  ⟨h.phase, h.bpp, h.entValid, h.clearFlag, rfl, h.width, h.free,
    ⟨⟨h.stream.bufCnt, h.stream.held⟩, h.stream.curBits, h.stream.acc⟩,
    ⟨h.packed.stream, h.packed.acc, h.packed.curBits⟩, h.table⟩

/-- The symbol widened to a code is the same number. -/
theorem toNat_setWidth_symbol (c : BitVec 8) : (c.setWidth 12).toNat = c.toNat := by
  rw [BitVec.toNat_setWidth]; omega

/-- A miss with room (R81, R84). -/
theorem FrameSim.enter (h : FrameSim b start codes f s) (hb : legalBpp b = true) (hf : FrameInv b f)
    (hc : c.toNat < 2 ^ b.toNat) (hht : s.ht = some tbl) (htbl : TableInv b f.free tbl) (hmap : MapAgrees tbl f.map)
    (hp : probeTable tbl s.ent c = .ok (false, i)) (hl : f.map.lookup (f.code, c.toNat) = none)
    (hfree : f.free < Config.maxMaxCode) :
    ∃ t, missSymbol i c s = .ok t ∧
      FrameSim b start (codes ++ [(f.code, f.width)])
        { map := ((f.code, c.toNat), f.free) :: f.map, free := f.free + 1, width := widen f.free f.width,
          code := c.toNat } t := by
  obtain ⟨u, hu, hst, hacc, hbits, hinv, hwidth, hflag, hframe⟩ := emitPrefix_spec (h.emitReady hb hf)
  have hfreeEnt : u.freeEnt.toNat = f.free := by rw [hframe.freeEnt, h.free]
  have hcode : (s.freeEnt.setWidth 12).toNat = f.free := by
    simp only [Config.maxMaxCode] at hfree
    rw [BitVec.toNat_setWidth, h.free, Nat.mod_eq_of_lt hfree]
  have hpacked := h.packed.emit hst hacc hbits
  rw [h.ent, h.width] at hpacked
  refine ⟨_, missSymbol_enter hu (hfreeEnt ▸ hfree), ?_⟩
  refine ⟨hframe.phase.trans h.phase, hframe.bpp.trans h.bpp, hframe.entValid.trans h.entValid, hflag,
    toNat_setWidth_symbol c, ?_, ?_, ⟨⟨hinv.bufCnt, hinv.held⟩, hinv.curBits, hinv.acc⟩,
    ⟨hpacked.stream, hpacked.acc, hpacked.curBits⟩, _, rfl, ?_⟩
  · show u.nBits.toNat = _
    rw [hwidth, nextWidth, h.free, h.width]
  · show (u.freeEnt + 1#13).toNat = f.free + 1
    simp only [Config.maxMaxCode] at hfree
    rw [BitVec.toNat_add, hfreeEnt, BitVec.toNat_ofNat]
    omega
  · rw [hframe.ht, hht, hframe.ent, hframe.freeEnt, Option.getD_some]
    rw [← hcode] at htbl ⊢
    rw [← h.ent] at hl ⊢
    exact ⟨tableInv_insert htbl (hcode ▸ hf.free.1) (by rw [hcode, h.ent]; exact hf.code) hc hp, hmap.insert hp hl⟩

/-- A miss with a full table (R81, R84). -/
theorem FrameSim.restart (h : FrameSim b start codes f s) (hb : legalBpp b = true) (hf : FrameInv b f)
    (hfree : ¬ f.free < Config.maxMaxCode) :
    ∃ t, missSymbol i c s = .ok t ∧
      FrameSim b start (codes ++ [(f.code, f.width), (clearCode b, widen f.free f.width)])
        { map := [], free := firstCode b, width := ics b + 1, code := c.toNat } t := by
  obtain ⟨u, hu, hst, hacc, hbits, hinv, hwidth, hflag, hframe⟩ := emitPrefix_spec (h.emitReady hb hf)
  have hubpp : u.bpp = b := hframe.bpp.trans h.bpp
  have huwidth : u.nBits.toNat = widen f.free f.width := by rw [hwidth, nextWidth, h.free, h.width]
  obtain ⟨t, ht, hst', hacc', hbits', hinv', hwidth', hflag', hframe'⟩ :=
    restartTable_spec hinv (hubpp.symm ▸ hb) (by rw [hubpp, huwidth]; exact hf.widen.1) (by rw [huwidth]; exact hf.widen.2)
  have hpacked := (h.packed.emit hst hacc hbits).emit hst' hacc' hbits'
  rw [h.ent, h.width, hubpp, huwidth, List.append_assoc, List.singleton_append] at hpacked
  refine ⟨_, missSymbol_restart hu (by rwa [hframe.freeEnt, h.free]) ht, ?_⟩
  refine ⟨hframe'.phase.trans (hframe.phase.trans h.phase), hframe'.bpp.trans hubpp,
    hframe'.entValid.trans (hframe.entValid.trans h.entValid), hflag', toNat_setWidth_symbol c, ?_, ?_,
    ⟨⟨hinv'.bufCnt, hinv'.held⟩, hinv'.curBits, hinv'.acc⟩, ⟨hpacked.stream, hpacked.acc, hpacked.curBits⟩, _,
    hframe'.ht, tableInv_empty (liveEntries_clear _), mapAgrees_empty (liveEntries_clear _)⟩
  · show t.nBits.toNat = _
    rw [hwidth', hubpp]
  · show t.freeEnt.toNat = _
    rw [hframe'.freeEnt, hubpp]
    exact firstCode_toNat hb

/-- One symbol: SYM after its checks does what the loop body of R84 does. -/
theorem FrameSim.symbol (h : FrameSim b start codes f s) (hb : legalBpp b = true) (hf : FrameInv b f)
    (hc : c.toNat < 2 ^ b.toNat) :
    ∃ t, consumeSymbol c s = .ok t ∧
      FrameSim b start (codes ++ (frameSymbol b f c.toNat).2) (frameSymbol b f c.toNat).1 t := by
  obtain ⟨tbl, hht, htbl, hmap⟩ := h.table
  obtain ⟨i, en, hp, hr, hl⟩ | ⟨i, hp, hl⟩ := hmap.probe hb hf.free.2 htbl s.ent c
  · rw [h.ent] at hl
    refine ⟨_, consumeSymbol_hit h.entValid hht hp hr, ?_⟩
    rw [frameSymbol_hit hl, List.append_nil]
    exact h.hit
  · rw [h.ent] at hl
    rw [consumeSymbol_miss h.entValid hht hp]
    by_cases hfree : f.free < Config.maxMaxCode
    · rw [frameSymbol_enter hl hfree]
      exact h.enter hb hf hc hht htbl hmap hp hl hfree
    · rw [frameSymbol_restart hl hfree]
      exact h.restart hb hf hfree

/-- START and the first symbol set up the variables of R84 (R80, R81). -/
theorem frameSim_start (s : State) (hb : legalBpp b = true) (c : BitVec 8) :
    ∃ t, startFrame b s = .ok t ∧ StreamFrame (beginFrame b s) t ∧
      FrameSim b s.out [(clearCode b, ics b + 1)] (frameStart b c) (takePrefix c t) := by
  obtain ⟨t, ht, hst, hacc, hbits, hinv, hwidth, hflag, hframe⟩ := startFrame_spec s hb
  rw [← emitValue_beginFrame b s (clearCode b), ← emitBits_beginFrame s hb] at hst hacc
  rw [← emitBits_beginFrame s hb] at hbits
  have hpacked := (packed_beginFrame b s).emit hst hacc hbits
  rw [beginFrame_nBits, initialWidth_toNat hb, List.nil_append] at hpacked
  refine ⟨t, ht, hframe, hframe.phase, hframe.bpp, rfl, hflag, toNat_setWidth_symbol c, hwidth, ?_,
    ⟨⟨hinv.bufCnt, hinv.held⟩, hinv.curBits, hinv.acc⟩, ⟨hpacked.stream, hpacked.acc, hpacked.curBits⟩, _,
    hframe.ht, tableInv_empty (liveEntries_clear _), mapAgrees_empty (liveEntries_clear _)⟩
  show t.freeEnt.toNat = _
  rw [hframe.freeEnt]
  exact firstCode_toNat hb

/-- END completes the frame: the output gains the framing of the codes with the last two (R82, R84). -/
theorem FrameSim.finish (h : FrameSim b start codes f s) (hb : legalBpp b = true) (hf : FrameInv b f) :
    ∃ t, finishFrame s = .ok t ∧ t.phase = .done ∧ t.inputs = s.inputs ∧
      t.out = start ++ frameBytes (payloadOf (codes ++ frameEnd b f)) := by
  obtain ⟨u, t, hst, ht, hout, -, -, -, -, -, -, hframe⟩ := finishFrame_spec (h.emitReady hb hf)
  have hlast : [(s.ent.toNat, s.nBits.toNat), (eofCode s.bpp, nextWidth s)] = frameEnd b f := by
    rw [nextWidth, h.ent, h.width, h.free, h.bpp, frameEnd]
  refine ⟨t, ht, hframe.phase, hframe.inputs, ?_⟩
  rw [hout, h.packed.finish hst, hlast, closeStream_foldl_pushByte]

end

/-! A command that passes its checks takes its own effect (R80 to R82) -/

section
variable {s t : State}

theorem exec_start_ok {a : BitVec 8} (hphase : s.phase = .idle ∨ s.phase = .done) (ha : startBitsClear a = true)
    (hb : legalBpp (bppField a) = true) (h : startFrame (bppField a) s = .ok t) : exec (.start a) s = .next t := by
  have hrun : s.phase ≠ .run := by rintro he; simp [he] at hphase
  have hfault : s.phase ≠ .fault := by rintro he; simp [he] at hphase
  change execStart a s = _
  rw [execStart, whenAccepting_of_ne hfault, if_neg (by simp [ha]), if_neg hrun, if_neg (by simp [hb]), h, toOutcome]

theorem exec_sym_ok {c : BitVec 8} (hphase : s.phase = .run) (hc : c.toNat < 2 ^ s.bpp.toNat)
    (h : consumeSymbol c s = .ok t) : exec (.sym c) s = .next t := by
  have hrange : symbolInRange s.bpp c = true := decide_eq_true hc
  change execSym c s = _
  rw [execSym, whenAccepting_of_ne (by simp [hphase]), if_neg (not_not.2 hphase), if_neg (by simp [hrange]), h, toOutcome]

theorem exec_endFrame_ok (hphase : s.phase = .run) (hvalid : s.entValid = true) (h : finishFrame s = .ok t) :
    exec (.endFrame 0#8) s = .next t := by
  change execEnd 0#8 s = _
  rw [execEnd, whenAccepting_of_ne (by simp [hphase]), if_neg (by decide), if_neg (not_not.2 hphase),
    if_neg (by simp [hvalid]), h, toOutcome]

end

/-! Runs of a frame -/

theorem run_succ_of_step {M : Host.Core} {n : Nat} {s u : M.State} (h : M.step s = .next u) :
    M.run (n + 1) s = M.run n u := by
  rw [Host.Core.run, h]

/-- A run is a first step and the run after it. -/
theorem Reaches.head {n : Nat} {s u t : State} (h : step s = .next u) (hrun : Reaches n u t) : Reaches (n + 1) s t :=
  (run_succ_of_step (M := Sys2Proof.core) h).trans hrun

theorem reaches_one {s t : State} (h : step s = .next t) : Reaches 1 s t := Reaches.head (n := 0) h rfl

/-- The symbols and END run from a state of the simulation (R81, R82, R84). -/
theorem FrameSim.run {b : BitVec 4} {start : List Byte} {codes : List Emitted} {f : FrameState} {s : State}
    {cs : List (BitVec 8)} {rest : List Input} (h : FrameSim b start codes f s) (hb : legalBpp b = true)
    (hf : FrameInv b f) (hcs : ∀ c ∈ cs, c.toNat < 2 ^ b.toNat)
    (hin : s.inputs = symInputs cs ++ .word endWord :: rest) :
    ∃ t, Reaches (cs.length + 1) s t ∧ t.phase = .done ∧ t.inputs = rest ∧
      t.out = start ++
        frameBytes (payloadOf (codes ++ (frameSymbols b f cs).2 ++ frameEnd b (frameSymbols b f cs).1)) := by
  have hphase : s.phase ≠ .fault := by simp [h.phase]
  induction cs generalizing s codes f with
  | nil =>
    obtain ⟨t, ht, hdone, hinputs, hout⟩ := (h.setInputs rest).finish hb hf
    have hstep := (stepRunsDecodedCommand s _ rest _ hphase (.inl hin) decode_endWord).trans
      (exec_endFrame_ok (h.setInputs rest).phase (h.setInputs rest).entValid ht)
    exact ⟨t, reaches_one hstep, hdone, hinputs, by rw [frameSymbols, List.append_nil]; exact hout⟩
  | cons c cs ih =>
    obtain ⟨hc, hcs⟩ := List.forall_mem_cons.1 hcs
    have hs := h.setInputs (symInputs cs ++ .word endWord :: rest)
    obtain ⟨u, hu, hsim⟩ := hs.symbol hb hf hc
    have hstep := (stepRunsDecodedCommand s _ _ _ hphase (.inl hin) (decode_symWord c)).trans
      (exec_sym_ok hs.phase (hs.bpp.symm ▸ hc) hu)
    have hinputs : u.inputs = _ := (consumeSymbol_frame hu).inputs
    obtain ⟨t, hrun, hdone, hrest, hout⟩ :=
      ih hsim (frameInv_frameSymbol hb hf hc) hcs hinputs (by simp [hsim.phase])
    exact ⟨t, hrun.head hstep, hdone, hrest, by rw [frameSymbols, ← List.append_assoc]; exact hout⟩

/-- Settles O46, by simulation: START and the first symbol set up the variables of R84, each further symbol is its loop
body and END its last two lines, and the machine's stream is the codes emitted so far, packed and framed. -/
theorem frameOutputIsAbstractFrame : Obligations.FrameOutputIsAbstractFrame := by
  intro s b c cs rest _ hphase hframe hin
  obtain ⟨hb, hc, hcs⟩ := hframe.cons
  have hin : s.inputs = .word (startWord b) :: .word (symWord c) :: (symInputs cs ++ .word endWord :: rest) := by
    rw [hin, frameInputs]
    simp [symInputs]
  have hfault : s.phase ≠ .fault := by rintro he; simp [he] at hphase
  obtain ⟨u, hu, hframe, hsim⟩ :=
    frameSim_start { s with inputs := .word (symWord c) :: (symInputs cs ++ .word endWord :: rest) } hb c
  have hstart := (stepRunsDecodedCommand s _ _ _ hfault (.inl hin) (decode_startWord b)).trans
    (exec_start_ok hphase (startBitsClear_setWidth b) (by rwa [bppField_setWidth]) (by rwa [bppField_setWidth]))
  have hfirst : step u = .next _ :=
    (stepRunsDecodedCommand u _ _ _ (by simp [hframe.phase]) (.inl hframe.inputs) (decode_symWord c)).trans
      (exec_sym_ok hframe.phase (by simpa [hframe.bpp] using hc) (if_pos hframe.entValid))
  obtain ⟨t, hrun, hdone, hrest, hout⟩ :=
    (hsim.setInputs (symInputs cs ++ .word endWord :: rest)).run hb (frameInv_restart hb hc) hcs rfl
  exact ⟨t, (hrun.head hfirst).head hstart, hdone, hrest, hout⟩

end Sys2Proof.Machine

/-! SUPPORT. The phases a command may take, and what START leaves: statements O18 to O20 of 40_commands.md (R80, R83,
R85). -/

namespace Sys2Proof.Machine

theorem phase_idle_or_done {p : Phase} (hrun : p ≠ .run) (hfault : p ≠ .fault) : p = .idle ∨ p = .done := by
  cases p with
  | idle => exact .inl rfl
  | run => exact absurd rfl hrun
  | done => exact .inr rfl
  | fault => exact absurd rfl hfault

/-- Settles O18, by what a command can answer: a fault entry, or its own effect, whose frame gives the phase. -/
theorem phaseTransitions : Obligations.PhaseTransitions := by
  intro i s t h
  obtain ⟨hphase, ⟨code, rfl, -⟩ | ⟨a, rfl, hrun, -, -, hstart⟩ | ⟨c, rfl, hrun, -, hsym⟩ |
    ⟨rfl, hrun, hvalid, hend⟩⟩ := exec_cases h
  · exact ⟨hphase, .inl rfl⟩
  · exact ⟨hphase, .inr (.inl ⟨⟨a, rfl⟩, phase_idle_or_done hrun hphase, (startFrame_frame hstart).phase⟩)⟩
  · exact ⟨hphase, .inr (.inr (.inl ⟨⟨c, rfl⟩, hrun, (consumeSymbol_frame hsym).phase.trans hrun⟩))⟩
  · exact ⟨hphase, .inr (.inr (.inr ⟨⟨_, rfl⟩, hrun, hvalid, (finishFrame_frame hend).phase⟩))⟩

/-! The `CLEAR` that START emits (R80): a whole byte leaves the accumulator only when `bpp` is 8 -/

section
variable {b : BitVec 4} {s t : State} (hb : legalBpp b = true)
include hb

theorem clearCode_wholeBytes : (ics b + 1) / 8 = if b = 8#4 then 1 else 0 := by
  obtain rfl | rfl | rfl | rfl := legalBpp_cases hb <;> rfl

theorem clearCode_bitsLeft : (ics b + 1) % 8 = if b = 8#4 then 1 else ics b + 1 := by
  obtain rfl | rfl | rfl | rfl := legalBpp_cases hb <;> rfl

theorem clearCode_accLeft :
    clearCode b / 256 ^ ((ics b + 1) / 8) = if b = 8#4 then 1 else clearCode b := by
  obtain rfl | rfl | rfl | rfl := legalBpp_cases hb <;> rfl

variable (h : Streamed (bytesOf (clearCode b) ((ics b + 1) / 8)) (beginFrame b s) t)
include h

/-- What START stores stays in the buffer. -/
theorem startFrame_stream : streamOf t = (s.out, bytesOf (clearCode b) ((ics b + 1) / 8)) := by
  have hsize := legalBpp_bounds hb
  rw [h.stream]
  refine foldl_pushByte_room (held := []) ?_
  rw [bytesOf_length, List.length_nil]
  simp only [Config.bufCap]
  omega

theorem startFrame_bufCnt : t.bufCnt.toNat = if b = 8#4 then 1 else 0 := by
  rw [h.count, beginFrame_bufCnt, bytesOf_length, clearCode_wholeBytes hb]
  split_ifs <;> rfl

/-- The one byte START may store is the low byte of `CLEAR`, in `BUF[0]`. -/
theorem startFrame_buf (j : Nat) :
    Memory.read t.buf j = if b = 8#4 ∧ j = 0 then some 0x00#8 else Memory.read s.buf j := by
  split_ifs with hj
  · obtain ⟨rfl, rfl⟩ := hj
    have hheld : heldBytes t = [0x00#8] := congrArg Prod.snd (startFrame_stream hb h)
    have hrange := readRange_held h.buffer
    rw [startFrame_bufCnt hb h, hheld, if_pos rfl, Memory.readRange_succ] at hrange
    obtain ⟨v, hv, hrest⟩ := Option.bind_eq_some_iff.1 hrange
    cases hrest
    exact hv
  · refine h.stored j fun k hk => ?_
    rw [bytesOf_length, clearCode_wholeBytes hb] at hk
    rw [beginFrame_bufCnt]
    split_ifs at hk with h8
    · have hj0 : j ≠ 0 := fun h0 => hj ⟨h8, h0⟩
      obtain rfl : k = 0 := by omega
      exact hj0
    · exact absurd hk (Nat.not_lt_zero k)

end

/-- Settles O19: START's checks pass, its writes are those of `beginFrame`, and of `CLEAR` at most one byte leaves the
accumulator, into the empty buffer. -/
theorem startBeginsFrame : Obligations.StartBeginsFrame := by
  intro s arg hphase harg hb
  obtain ⟨t, ht, hstream, hacc, hbits, -, hwidth, hflag, hframe⟩ := startFrame_spec s hb
  exact ⟨t, _, exec_start_ok hphase harg hb ht, hframe.phase, hframe.faultCode, hframe.bpp, hframe.ent,
    hframe.entValid, hwidth, by rw [hframe.freeEnt]; exact firstCode_toNat hb, hflag,
    hacc.trans (clearCode_accLeft hb), hbits.trans (clearCode_bitsLeft hb), startFrame_bufCnt hb hstream,
    startFrame_buf hb hstream, hframe.ht, liveEntries_clear _, read_clear _,
    congrArg Prod.fst (startFrame_stream hb hstream), hframe.inputs, hframe.freeCount⟩

theorem heldBytes_congr {s t : State} (hcount : t.bufCnt = s.bufCnt)
    (h : ∀ j < s.bufCnt.toNat, Memory.read t.buf j = Memory.read s.buf j) : heldBytes t = heldBytes s := by
  rw [heldBytes, heldBytes, hcount, Memory.readRange_congr fun j _ hj => h j (by omega)]

/-- With no valid entry a Probe misses at its first slot, whatever the stale keys are (R104). -/
theorem probe_of_noLive {s : State} {tbl : List (Nat × HtEntry)} (hht : s.ht = some tbl) (h : liveEntries tbl = [])
    (e : BitVec 12) (c : BitVec 8) : probe e c s = .ok (false, hashOf e c) := by
  rw [probe_eq_probeTable hht, probeTable_of_noLive h]

/-- Settles O20, from O19 of both states: what START leaves in each compared place is a function of `bpp`. -/
theorem startForgetsThePast : Obligations.StartForgetsThePast := by
  intro s₁ s₂ arg hphase₁ hphase₂ harg hb
  obtain ⟨t₁, tbl₁, hexec₁, hrun₁, hcode₁, hbpp₁, hent₁, hvalid₁, hwidth₁, hfree₁, hflag₁, hacc₁, hbits₁, hcount₁,
    hbuf₁, hht₁, hlive₁, -, -, -, -⟩ := startBeginsFrame s₁ arg hphase₁ harg hb
  obtain ⟨t₂, tbl₂, hexec₂, hrun₂, hcode₂, hbpp₂, hent₂, hvalid₂, hwidth₂, hfree₂, hflag₂, hacc₂, hbits₂, hcount₂,
    hbuf₂, hht₂, hlive₂, -, -, -, -⟩ := startBeginsFrame s₂ arg hphase₂ harg hb
  have hcount : t₁.bufCnt = t₂.bufCnt := BitVec.eq_of_toNat_eq (hcount₁.trans hcount₂.symm)
  have hheld : heldBytes t₁ = heldBytes t₂ := heldBytes_congr hcount fun j hj => by
    rw [hcount₂] at hj
    split_ifs at hj with h8
    · have hstored : bppField arg = 8#4 ∧ j = 0 := ⟨h8, by omega⟩
      rw [hbuf₁, hbuf₂, if_pos hstored, if_pos hstored]
    · exact absurd hj (Nat.not_lt_zero j)
  exact ⟨t₁, t₂, hexec₁, hexec₂, hrun₁.trans hrun₂.symm, hbpp₁.trans hbpp₂.symm, hent₁.trans hent₂.symm,
    hvalid₁.trans hvalid₂.symm, BitVec.eq_of_toNat_eq (hwidth₁.trans hwidth₂.symm),
    BitVec.eq_of_toNat_eq (hfree₁.trans hfree₂.symm), hflag₁.trans hflag₂.symm,
    BitVec.eq_of_toNat_eq (hacc₁.trans hacc₂.symm), BitVec.eq_of_toNat_eq (hbits₁.trans hbits₂.symm), hcount, hcode₁,
    hcode₂, hheld, ⟨tbl₁, tbl₂, hht₁, hht₂, hlive₁, hlive₂⟩,
    fun e c => (probe_of_noLive hht₁ hlive₁ e c).trans (probe_of_noLive hht₂ hlive₂ e c).symm⟩

end Sys2Proof.Machine

/-! SUPPORT. What SYM does: statements O21 to O26 of 40_commands.md (R81). -/

namespace Sys2Proof.Machine

theorem consumeSymbol_first {s : State} {c : BitVec 8} (hvalid : s.entValid = false) :
    consumeSymbol c s = .ok (takePrefix c s) := if_pos hvalid

/-- Settles O21: the symbol passes its checks, and with `ent_valid` 0 it is what `ent` then holds. -/
theorem firstSymbolBecomesPrefix : Obligations.FirstSymbolBecomesPrefix := by
  intro s c hphase hc hvalid
  exact exec_sym_ok hphase hc (consumeSymbol_first hvalid)

/-- Settles O22: where Probe hit, the slot is valid and holds the key, and its code is the new `ent`. -/
theorem symbolHitExtendsPrefix : Obligations.SymbolHitExtendsPrefix := by
  intro s c tbl i hphase hc hvalid hht hp
  obtain ⟨en, hr, hlive, hkey⟩ := probeTable_hit_entry hp
  exact ⟨en, hr, (mem_liveEntries.1 hlive).2, hkey, exec_sym_ok hphase hc (consumeSymbol_hit hvalid hht hp hr)⟩

/-- Settles O23: `ent` is emitted, which leaves the table, `ent` and `free_ent`, and the pair is entered. -/
theorem symbolMissEntersString : Obligations.SymbolMissEntersString := by
  intro s c tbl i hphase hc hvalid hready hht hp hfree
  obtain ⟨u, hu, hstream, -, -, -, hwidth, -, hframe⟩ := emitPrefix_spec hready
  have hroom : u.freeEnt.toNat < Config.maxMaxCode := by rw [hframe.freeEnt]; exact hfree
  have hsym := (consumeSymbol_miss hvalid hht hp).trans (missSymbol_enter hu hroom)
  refine ⟨u, _, hu, exec_sym_ok hphase hc hsym, ?_, ?_, hwidth, hstream.stream⟩
  · rw [restartPrefix, enterString, insertEntry, hframe.ht, hframe.ent, hframe.freeEnt, hht, Option.getD_some]
  · rw [restartPrefix_freeEnt, enterString_freeEnt, hframe.freeEnt, BitVec.toNat_add, BitVec.toNat_ofNat]
    omega

/-- Settles O24: `ent` and `CLEAR` are emitted in a row, the table being emptied between them. -/
theorem symbolMissClearsFullTable : Obligations.SymbolMissClearsFullTable := by
  intro s c tbl i hphase hc hvalid hready hht hp hfull
  obtain ⟨u, t, hu, ht, hstream, hacc, hbits, -, hwidth, hflag, hframe⟩ := emitThenRestart_spec hready
  have hnoRoom : ¬ u.freeEnt.toNat < Config.maxMaxCode := by
    rw [(emitCode_frame hu).freeEnt, hfull]; exact Nat.lt_irrefl _
  have hsym := (consumeSymbol_miss hvalid hht hp).trans (missSymbol_restart hu hnoRoom ht)
  refine ⟨_, exec_sym_ok hphase hc hsym, rfl, ?_, hwidth, hflag, ?_, liveEntries_clear tbl, hstream.stream, hacc, hbits⟩
  · rw [restartPrefix_freeEnt, hframe.freeEnt]
    exact firstCode_toNat hready.bpp
  · rw [restartPrefix_ht, hframe.ht, hht, Option.getD_some]

/-! What a completed SYM can be -/

section
variable {s t : State} {c : BitVec 8}

/-- A next state of SYM is a fault entry or SYM's own effect (R81, R133). -/
theorem exec_sym_cases (h : exec (.sym c) s = .next t) :
    (∃ code, t = takeFault code s) ∨ consumeSymbol c s = .ok t := by
  obtain ⟨-, ⟨code, rfl, -⟩ | ⟨_, he, -⟩ | ⟨_, he, -, -, hsym⟩ | ⟨he, -⟩⟩ := exec_cases h
  · exact .inl ⟨code, rfl⟩
  · cases he
  · cases he; exact .inr hsym
  · cases he

/-- SYM's own effect (R81): a first symbol; a hit; a miss with room; a miss with a full table. -/
theorem consumeSymbol_cases (h : consumeSymbol c s = .ok t) :
    (s.entValid = false ∧ t = takePrefix c s) ∨
    (s.entValid = true ∧
      ((∃ i code, probe s.ent c s = .ok (true, i) ∧ t = { s with ent := code }) ∨
       (∃ i u, probe s.ent c s = .ok (false, i) ∧ s.freeEnt.toNat < Config.maxMaxCode ∧ emitCode s.ent s = .ok u ∧
         t = restartPrefix c (enterString i c u)) ∨
       (∃ i u v, probe s.ent c s = .ok (false, i) ∧ ¬ s.freeEnt.toNat < Config.maxMaxCode ∧
         emitCode s.ent s = .ok u ∧ restartTable u = .ok v ∧ t = restartPrefix c v))) := by
  unfold consumeSymbol at h
  split_ifs at h with hvalid
  · cases h
    exact .inl ⟨hvalid, rfl⟩
  · refine .inr ⟨by simpa using hvalid, ?_⟩
    obtain ⟨⟨hit, i⟩, hp, h⟩ := except_bind_ok.1 h
    cases hit with
    | true =>
      obtain ⟨code, -, rfl⟩ := except_map_ok.1 h
      exact .inl ⟨i, code, hp, rfl⟩
    | false =>
      obtain ⟨u, hu, h⟩ := except_bind_ok.1 h
      obtain ⟨v, hv, rfl⟩ := except_map_ok.1 h
      rw [(emitCode_frame hu).freeEnt] at hv
      split_ifs at hv with hfree
      · cases hv
        exact .inr (.inl ⟨i, u, hp, hfree, hu, rfl⟩)
      · exact .inr (.inr ⟨i, u, v, hp, hfree, hu, hv, rfl⟩)

/-! How many bytes it stores -/

theorem symbolBytes_first (hvalid : s.entValid = false) : symbolBytes c s = 0 := if_pos hvalid

theorem symbolBytes_hit {i : Nat} (hp : probe s.ent c s = .ok (true, i)) : symbolBytes c s = 0 := by
  rw [symbolBytes, hp, ite_self]

theorem symbolBytes_miss {i : Nat} (hvalid : s.entValid = true) (hp : probe s.ent c s = .ok (false, i)) :
    symbolBytes c s =
      if s.freeEnt.toNat < Config.maxMaxCode then emitBits s / 8 else (emitBits s + nextWidth s) / 8 := by
  rw [symbolBytes, if_neg (by simp [hvalid]), hp]

/-- The bits of two codes and those waiting before them (R116). -/
theorem EmitReady.bits_le (h : EmitReady s) : emitBits s ≤ 19 ∧ nextWidth s ≤ 12 :=
  ⟨Nat.add_le_add h.stream.curBits h.width.2, (widen_bounds h.width.2).2⟩

theorem symbolBytes_le (h : s.entValid = true → EmitReady s) : symbolBytes c s ≤ 3 := by
  cases hvalid : s.entValid with
  | false => exact (symbolBytes_first hvalid).trans_le (Nat.zero_le _)
  | true =>
    obtain ⟨hbits, hnext⟩ := (h hvalid).bits_le
    rw [symbolBytes, if_neg (by simp [hvalid])]
    split
    · split_ifs <;> omega
    · exact Nat.zero_le _

/-- SYM with `ent_valid` 1 passes `symbolBytes` bytes through the buffer (R81, R110). -/
theorem consumeSymbol_streamed (hvalid : s.entValid = true) (hready : EmitReady s) (h : consumeSymbol c s = .ok t) :
    ∃ bytes, bytes.length = symbolBytes c s ∧ Streamed bytes s t := by
  obtain ⟨hno, -⟩ | ⟨-, ⟨i, code, hp, rfl⟩ | ⟨i, u, hp, hfree, hu, rfl⟩ | ⟨i, u, v, hp, hfree, hu, hv, rfl⟩⟩ :=
    consumeSymbol_cases h
  · rw [hvalid] at hno
    cases hno
  · exact ⟨[], (symbolBytes_hit hp).symm, (Streamed.refl hready.stream.toBufInv).congr rfl rfl⟩
  · obtain ⟨u', hu', hstream, -⟩ := emitPrefix_spec hready
    obtain rfl : u' = u := Except.ok.inj (hu'.symm.trans hu)
    exact ⟨_, by rw [bytesOf_length, symbolBytes_miss hvalid hp, if_pos hfree], hstream.congr rfl rfl⟩
  · obtain ⟨u', v', hu', hv', hstream, -⟩ := emitThenRestart_spec hready
    obtain rfl : u' = u := Except.ok.inj (hu'.symm.trans hu)
    obtain rfl : v' = v := Except.ok.inj (hv'.symm.trans hv)
    exact ⟨_, by rw [bytesOf_length, symbolBytes_miss hvalid hp, if_neg hfree], hstream.congr rfl rfl⟩

/-! The frame of SYM -/

/-- Storing no byte leaves `OUT` and `buf_cnt`. -/
theorem Streamed.out_of_nil (h : Streamed [] s t) (hs : BufInv s) : t.out = s.out ∧ t.bufCnt = s.bufCnt := by
  refine ⟨congrArg Prod.fst h.stream, BitVec.eq_of_toNat_eq ?_⟩
  have hle := hs.bufCnt
  rw [h.count, List.length_nil]
  omega

theorem consumeSymbol_out_of_noBytes (hready : s.entValid = true → EmitReady s) (h : consumeSymbol c s = .ok t)
    (h0 : symbolBytes c s = 0) : t.out = s.out ∧ t.bufCnt = s.bufCnt := by
  cases hvalid : s.entValid with
  | false =>
    cases (consumeSymbol_first hvalid).symm.trans h
    exact ⟨rfl, rfl⟩
  | true =>
    obtain ⟨bytes, hlen, hstream⟩ := consumeSymbol_streamed hvalid (hready hvalid) h
    obtain rfl := List.eq_nil_of_length_eq_zero (hlen.trans h0)
    exact hstream.out_of_nil (hready hvalid).stream.toBufInv

theorem consumeSymbol_buf (hready : s.entValid = true → EmitReady s) (h : consumeSymbol c s = .ok t) {j : Nat}
    (hj : ∀ k < symbolBytes c s, j ≠ (s.bufCnt.toNat + k) % 255) : Memory.read t.buf j = Memory.read s.buf j := by
  cases hvalid : s.entValid with
  | false =>
    cases (consumeSymbol_first hvalid).symm.trans h
    rfl
  | true =>
    obtain ⟨bytes, hlen, hstream⟩ := consumeSymbol_streamed hvalid (hready hvalid) h
    exact hstream.stored j (hlen ▸ hj)

theorem emitCode_clearFlag {k : BitVec 12} (h : emitCode k s = .ok t) : t.clearFlag = false := by
  obtain ⟨u, -, rfl⟩ := except_map_ok.1 h
  exact widthUpdate_clearFlag u

/-- `clear_flag` is 0 after any emission, and SYM only emits from a state in which it was 0 (R16). -/
theorem consumeSymbol_clearFlag (hready : s.entValid = true → EmitReady s) (h : consumeSymbol c s = .ok t) :
    t.clearFlag = s.clearFlag := by
  obtain ⟨-, rfl⟩ | ⟨hvalid, ⟨i, code, -, rfl⟩ | ⟨i, u, -, -, hu, rfl⟩ | ⟨i, u, v, -, -, -, hv, rfl⟩⟩ :=
    consumeSymbol_cases h
  · rfl
  · rfl
  · exact (emitCode_clearFlag hu).trans (hready hvalid).clearFlag.symm
  · exact (emitCode_clearFlag hv).trans (hready hvalid).clearFlag.symm

/-- A hit leaves the table, and a miss with room leaves every slot but the one where Probe ended (R81, R103). -/
theorem consumeSymbol_table (h : consumeSymbol c s = .ok t) (hvalid : s.entValid = true) {hit : Bool} {i j : Nat}
    (hp : probe s.ent c s = .ok (hit, i)) (hslot : hit = true ∨ s.freeEnt.toNat < Config.maxMaxCode ∧ j ≠ i) :
    Memory.read (t.ht.getD []) j = Memory.read (s.ht.getD []) j := by
  obtain ⟨hno, -⟩ | ⟨-, ⟨i', code, -, rfl⟩ | ⟨i', u, hp', hfree, hu, rfl⟩ | ⟨i', u, v, hp', hfree, -⟩⟩ :=
    consumeSymbol_cases h
  · rw [hvalid] at hno
    cases hno
  · rfl
  · cases hp.symm.trans hp'
    have hj : j ≠ i := by simpa [hfree] using hslot
    rw [restartPrefix_ht, enterString_ht, Option.getD_some, Memory.read_write_other _ _ hj, (emitCode_frame hu).ht]
  · cases hp.symm.trans hp'
    exact absurd hslot (by simp [hfree])

end

/-- Settles O25, from the frame of SYM's own effect: a fault entry is excluded by the phase it leaves. -/
theorem symbolFrame : Obligations.SymbolFrame := by
  intro s t c hready hexec hphase
  obtain ⟨code, rfl⟩ | h := exec_sym_cases hexec
  · exact absurd rfl hphase
  have hframe := consumeSymbol_frame h
  refine ⟨hframe.phase, hframe.faultCode, hframe.bpp, hframe.entValid, consumeSymbol_clearFlag hready h, hframe.inputs,
    hframe.freeCount, consumeSymbol_out_of_noBytes hready h, fun j => consumeSymbol_buf hready h,
    fun j hit i hvalid hp hslot => consumeSymbol_table h hvalid hp hslot, fun hvalid => ?_⟩
  cases (consumeSymbol_first hvalid).symm.trans h
  rfl

/-! The few bytes of a command through the buffer (R120) -/

/-- Held bytes are as if they had just been pushed. -/
theorem foldl_pushByte_held {out held bytes : List Byte} (h : held.length < Config.bufCap) :
    bytes.foldl pushByte (out, held) = (held ++ bytes).foldl pushByte (out, []) := by
  rw [List.foldl_append, foldl_pushByte_room (held := []) (by rwa [List.length_nil, Nat.zero_add]), List.nil_append]

/-- Fewer than two blocks' bytes let at most one block out (R120). -/
theorem foldl_pushByte_out {out payload : List Byte} (h : payload.length < 2 * Config.bufCap) :
    (payload.foldl pushByte (out, [])).1 = out ∨
      ∃ block, block.length = 255 ∧ (payload.foldl pushByte (out, [])).1 = out ++ 0xFF#8 :: block := by
  by_cases hlt : payload.length < Config.bufCap
  · refine .inl ?_
    rw [foldl_pushByte_room (by rwa [List.length_nil, Nat.zero_add])]
  · have hblock : (payload.take Config.bufCap).length = Config.bufCap := List.length_take_of_le (Nat.not_lt.1 hlt)
    have hroom : ([] : List Byte).length + (payload.drop Config.bufCap).length < Config.bufCap := by
      rw [List.length_nil, List.length_drop]; omega
    refine .inr ⟨payload.take Config.bufCap, hblock, ?_⟩
    conv_lhs => rw [← List.take_append_drop Config.bufCap payload]
    rw [List.foldl_append, foldl_pushByte_full hblock, foldl_pushByte_room hroom]

/-- Settles O26: the few bytes a SYM stores complete at most one block. -/
theorem symbolOutputsNothingOrBlock : Obligations.SymbolOutputsNothingOrBlock := by
  intro s t c hready hexec
  obtain ⟨code, rfl⟩ | h := exec_sym_cases hexec
  · exact .inl rfl
  cases hvalid : s.entValid with
  | false => exact .inl (consumeSymbol_out_of_noBytes hready h (symbolBytes_first hvalid)).1
  | true =>
    obtain ⟨bytes, hlen, hstream⟩ := consumeSymbol_streamed hvalid (hready hvalid) h
    have hbuf := (hready hvalid).stream.toBufInv
    have hheld : (heldBytes s).length ≤ 254 := (heldBytes_length hbuf).trans_le hbuf.bufCnt
    have hfew : bytes.length ≤ 3 := hlen.trans_le (symbolBytes_le hready)
    have hout : t.out = ((heldBytes s ++ bytes).foldl pushByte (s.out, [])).1 :=
      (congrArg Prod.fst hstream.stream).trans
        (congrArg Prod.fst (foldl_pushByte_held (by simp only [Config.bufCap]; omega)))
    rw [hout]
    exact foldl_pushByte_out (by rw [List.length_append]; simp only [Config.bufCap]; omega)

end Sys2Proof.Machine

/-! SUPPORT. What END does, and whole frames from any state: statements O27, O28 and O44 of 40_commands.md (R82,
R85). -/

namespace Sys2Proof.Machine

/-- Settles O27: END passes its checks, and its own effect is the stream of the last two codes, closed. -/
theorem endFinishesFrame : Obligations.EndFinishesFrame := by
  intro s hphase hvalid hready
  obtain ⟨u, t, hstream, ht, hout, hbuf, hacc, hbits, hcount, hwidth, hflag, hframe⟩ := finishFrame_spec hready
  refine ⟨t, exec_endFrame_ok hphase hvalid ht, hframe.phase, hframe.entValid, hacc, hbits, hcount, hwidth,
    by rw [hout, hstream.stream], hframe.faultCode, hframe.bpp, hframe.ent, hframe.freeEnt, hflag, hframe.ht,
    hframe.inputs, hframe.freeCount, fun j hj => ?_⟩
  rw [hbuf]
  exact hstream.stored j (by rwa [bytesOf_length])

/-- An END that ends in DONE has taken its own effect (R82, R133). -/
theorem finishFrame_of_exec {a : BitVec 8} {s t : State} (h : exec (.endFrame a) s = .next t)
    (hdone : t.phase = .done) : finishFrame s = .ok t := by
  obtain ⟨-, ⟨code, rfl, -⟩ | ⟨_, he, -⟩ | ⟨_, he, -⟩ | ⟨-, -, -, hend⟩⟩ := exec_cases h
  · cases hdone
  · cases he
  · cases he
  · exact hend

/-- END adds to `OUT` the framing of the held bytes and its own (R82, R120 to R122). -/
theorem finishFrame_out {s t : State} (hready : EmitReady s) (h : finishFrame s = .ok t) :
    t.out = s.out ++ frameBytes (heldBytes s ++ bytesOf (endValue s) (endBytes s)) := by
  obtain ⟨u, t', hstream, ht', hout, -⟩ := finishFrame_spec hready
  obtain rfl : t' = t := Except.ok.inj (ht'.symm.trans h)
  have hbuf := hready.stream.toBufInv
  have hheld : (heldBytes s).length < Config.bufCap := by
    rw [heldBytes_length hbuf]; exact Nat.lt_succ_of_le hbuf.bufCnt
  rw [hout, hstream.stream, streamOf, foldl_pushByte_held hheld, closeStream_foldl_pushByte]

/-- END stores one to four bytes: 6 to 31 bits, and the padding (R82, R116). -/
theorem EmitReady.endBytes_bounds {s : State} (h : EmitReady s) : 1 ≤ endBytes s ∧ endBytes s ≤ 4 := by
  obtain ⟨hbits, hnext⟩ := h.bits_le
  have hmin : 3 ≤ s.nBits.toNat := (Nat.succ_le_succ (legalBpp_bounds h.bpp).1).trans h.width.1
  have hbitsMin : s.nBits.toNat ≤ emitBits s := Nat.le_add_left _ _
  unfold endBytes
  omega

/-- Settles O28: the framing of at most 254 held bytes and one to four more is one or two sub-blocks and the
terminator. -/
theorem endOutputBounds : Obligations.EndOutputBounds := by
  intro s t hready hexec hdone
  have hout := finishFrame_out hready (finishFrame_of_exec hexec hdone)
  obtain ⟨hmin, hmax⟩ := hready.endBytes_bounds
  have hbuf := hready.stream.toBufInv
  have hheld : (heldBytes s).length ≤ 254 := (heldBytes_length hbuf).trans_le hbuf.bufCnt
  refine ⟨_, hout.trans (List.append_assoc _ _ _).symm, ?_⟩
  rw [dataBlocks_length le_rfl, List.length_append, bytesOf_length]
  omega

/-- Settles O44, from O46: what a frame adds is the framing of the abstract algorithm's codes, from either state. -/
theorem frameOutputForgetsThePast : Obligations.FrameOutputForgetsThePast := by
  intro s₁ s₂ b c cs hinv₁ hinv₂ hphase₁ hphase₂ hlegal hin₁ hin₂
  obtain ⟨t₁, hrun₁, hdone₁, hrest₁, hout₁⟩ :=
    frameOutputIsAbstractFrame s₁ b c cs [] hinv₁ hphase₁ hlegal (hin₁.trans (List.append_nil _).symm)
  obtain ⟨t₂, hrun₂, hdone₂, hrest₂, hout₂⟩ :=
    frameOutputIsAbstractFrame s₂ b c cs [] hinv₂ hphase₂ hlegal (hin₂.trans (List.append_nil _).symm)
  exact ⟨t₁, t₂, _, hrun₁, hrun₂, ⟨hrest₁, .inr hdone₁⟩, ⟨hrest₂, .inr hdone₂⟩, hout₁, hout₂⟩

end Sys2Proof.Machine

/-! SUPPORT. What Probe, Insert and ClearTable do to the string table: statements O34, O35, O38 and O39 of
41_string_table.md (R100 to R105). -/

namespace Sys2Proof.Machine

/-! Keys and hashes as numbers -/

theorem keyOf_toNat (e : BitVec 12) (c : BitVec 8) : (keyOf e c).toNat = c.toNat * 4096 + e.toNat := by
  rw [keyOf, BitVec.toNat_append, ← Nat.shiftLeft_add_eq_or_of_lt e.isLt, Nat.shiftLeft_eq]

theorem hashOf_eq_xor (e : BitVec 12) (c : BitVec 8) : hashOf e c = (c.toNat * 16) ^^^ e.toNat := by
  rw [hashOf, Nat.shiftLeft_eq]; rfl

/-- Settles O34: the prefix is below 2^12, so the key's two fields do not overlap. -/
theorem keyAndHash : Obligations.KeyAndHash := fun e c =>
  ⟨keyOf_toNat e c, keyPrefix_keyOf e c, keySymbol_keyOf e c, hashOf_eq_xor e c, hashOf_lt e c⟩

/-! The slots of a search, from its first slot -/

/-- Subtracting `HSIZE - i` adds `i` modulo `HSIZE`, so the slots read are the multiples of the first one (R102). -/
theorem slotAfter_displacement_of_pos {i : Nat} (hpos : 0 < i) (hi : i < Config.hsize) (n : Nat) :
    slotAfter (displacement i) i n = i * (n + 1) % Config.hsize := by
  have hstep : Config.hsize - displacement i = i := by
    rw [displacement, if_neg hpos.ne', Nat.sub_sub_self hi.le]
  rw [slotAfter_eq (displacement_bounds hi) hi, hstep, Nat.mul_succ, Nat.mul_comm n, Nat.add_comm]

/-- From slot 0 the displacement is 1, so the search goes down from the last slot (R102). -/
theorem slotAfter_displacement_zero {n : Nat} (hpos : 0 < n) (hn : n < Config.hsize) :
    slotAfter (displacement 0) 0 n = Config.hsize - n := by
  have hzero : 0 < Config.hsize := hpos.trans hn
  rw [slotAfter_eq (displacement_bounds hzero) hzero, displacement, if_pos rfl]
  simp only [Config.hsize] at hn ⊢
  omega

/-- Settles O35: a step is an addition modulo the table size, from either kind of first slot. -/
theorem probeSlotSequence : Obligations.ProbeSlotSequence :=
  ⟨fun _ n hpos hi => slotAfter_displacement_of_pos hpos hi n, fun _ hpos hn => slotAfter_displacement_zero hpos hn⟩

/-! What Insert and ClearTable do to the map -/

/-- Settles O38: the slot where Probe missed is empty, so writing it takes no pair from the map. -/
theorem insertAddsOnePair : Obligations.InsertAddsOnePair := by
  intro tbl e c v s i hht hmiss
  refine ⟨Memory.write tbl i { valid := true, key := keyOf e c, code := v }, ?_, fun j => Memory.read_write _ _ _ _,
    fun _ _ _ => tableMaps_write hmiss⟩
  rw [insertEntry, hht, Option.getD_some]

theorem not_tableMaps_of_noLive {tbl : List (Nat × HtEntry)} (h : liveEntries tbl = []) (e : BitVec 12) (c : BitVec 8)
    (code : BitVec 12) : ¬ tableMaps tbl e c code := by
  simp [tableMaps, h]

/-- Settles O39: no entry is valid after ClearTable, so the map is empty and the first slot of a Probe is too. -/
theorem clearTableEmptiesMap : Obligations.ClearTableEmptiesMap := fun s =>
  have hlive := liveEntries_clear (s.ht.getD [])
  ⟨_, rfl, read_clear _, not_tableMaps_of_noLive hlive, probeTable_of_noLive hlive⟩

end Sys2Proof.Machine

/-! SUPPORT. What WidthUpdate, EmitCode and FlushAcc do: statements O31 to O33 of 42_code_emit.md (R110, R112, R113). -/

namespace Sys2Proof.Machine

/-! The branches of WidthUpdate (R112) -/

section
variable {s : State}

theorem widthUpdate_of_clear (hclear : s.clearFlag = true) :
    widthUpdate s = { s with nBits := BitVec.ofNat 4 (ics s.bpp + 1), clearFlag := false } := if_pos hclear

theorem widthUpdate_of_noClear (hclear : s.clearFlag = false) :
    widthUpdate s =
      if maxCode s.nBits < s.freeEnt.toNat ∧ s.nBits.toNat < Config.maxBits then { s with nBits := s.nBits + 1#4 }
      else s := if_neg (by simp [hclear])

/-- One more bit stays within the 4-bit register, since the width is below 12. -/
theorem widthUpdate_nBits_of_grow (hclear : s.clearFlag = false) (hfree : maxCode s.nBits < s.freeEnt.toNat)
    (hmax : s.nBits.toNat < Config.maxBits) : (widthUpdate s).nBits.toNat = s.nBits.toNat + 1 := by
  rw [widthUpdate_of_noClear hclear, if_pos ⟨hfree, hmax⟩, BitVec.toNat_add, BitVec.toNat_ofNat]
  simp only [Config.maxBits] at hmax
  omega

theorem widthUpdate_of_noGrow (hclear : s.clearFlag = false)
    (hkeep : s.freeEnt.toNat ≤ maxCode s.nBits ∨ Config.maxBits ≤ s.nBits.toNat) : widthUpdate s = s := by
  rw [widthUpdate_of_noClear hclear, if_neg (by omega)]

end

theorem widthUpdate_writes (s : State) :
    widthUpdate s = { s with nBits := (widthUpdate s).nBits, clearFlag := false } := by
  cases hclear : s.clearFlag with
  | true => rw [widthUpdate_of_clear hclear]
  | false => rw [widthUpdate_of_noClear hclear, ← hclear]; split_ifs <;> rfl

/-- Settles O31: one clause for each branch of WidthUpdate, and what every branch leaves unchanged. -/
theorem widthUpdateGrowsByOne : Obligations.WidthUpdateGrowsByOne := fun s =>
  ⟨fun hclear hb => by rw [widthUpdate_of_clear hclear]; exact initialWidth_toNat hb,
    widthUpdate_nBits_of_grow, widthUpdate_of_noGrow, widthUpdate_writes s⟩

/-- Settles O32: `emitCode_spec` gives the whole effect; it stores to `BUF` as many bytes as the bits fill. -/
theorem emitCodePacksBits : Obligations.EmitCodePacksBits := by
  intro s code hinv hmax hfits
  obtain ⟨t, hemit, hstream, hacc, hbits, hinv', hwidth, hframe⟩ := emitCode_spec hinv hfits hmax
  refine ⟨t, hemit, hstream.stream, hacc, hbits, hinv', hwidth, fun j hj => hstream.stored j ?_, hframe⟩
  rw [bytesOf_length]
  exact hj

/-! The waiting bits as a byte (R113) -/

/-- At most 7 bits wait, so the low byte of `acc` is all of it. -/
theorem acc_lowByte_toNat {s : State} (h : StreamInv s) : (s.acc.setWidth 8).toNat = s.acc.toNat := by
  have hbyte : s.acc.toNat < 2 ^ 8 := h.acc.trans_le (Nat.pow_le_pow_right Nat.two_pos (h.curBits.trans (by decide)))
  rw [BitVec.toNat_setWidth, Nat.mod_eq_of_lt hbyte]

theorem flushAcc_of_noBits {s : State} (h : s.curBits = 0#5) : flushAcc s = .ok s := if_pos h

theorem flushAcc_of_bits {s : State} (h : s.curBits ≠ 0#5) :
    flushAcc s = (byteOut (s.acc.setWidth 8) s).map emptyAcc := if_neg h

/-- Settles O33: with bits waiting, ByteOut takes the low byte of `acc`, whose value is all of `acc`. -/
theorem flushAccPadsWithZeros : Obligations.FlushAccPadsWithZeros := by
  refine fun s hinv => ⟨flushAcc_of_noBits, fun hbits => ?_⟩
  have hbyte := acc_lowByte_toNat hinv
  obtain ⟨u, hu, -, -⟩ := byteOut_spec hinv.toBufInv (s.acc.setWidth 8)
  refine ⟨u, s.acc.setWidth 8, hu, hbyte, hbyte.trans_lt hinv.acc, ?_⟩
  rw [flushAcc_of_bits hbits, hu]
  rfl

end Sys2Proof.Machine

/-! SUPPORT. What ByteOut and FlushBlock do: statements O29 and O30 of 43_subblock.md (R120, R121). -/

namespace Sys2Proof.Machine.Memory

variable {α : Type}

/-- The values of a range are listed in the order of their indices. -/
theorem readRange_getElem? {m : List (Nat × α)} {a n j : Nat} {vs : List α} (h : readRange m a n = some vs)
    (hj : j < n) : vs[j]? = read m (a + j) := by
  induction n generalizing a j vs with
  | zero => exact absurd hj (Nat.not_lt_zero j)
  | succ n ih =>
    rw [readRange_succ] at h
    simp only [Option.bind_eq_some_iff, Option.map_eq_some_iff] at h
    obtain ⟨v, hv, ws, hws, rfl⟩ := h
    cases j with
    | zero => exact hv.symm
    | succ j =>
      rw [List.getElem?_cons_succ, ih hws (Nat.lt_of_succ_lt_succ hj), Nat.add_assoc, Nat.add_comm 1]

end Sys2Proof.Machine.Memory

namespace Sys2Proof.Machine

/-! The buffer after ByteOut and FlushBlock -/

/-- FlushBlock does not erase the bytes of `BUF` (R121). -/
theorem flushBlock_buf {s t : State} (h : flushBlock s = .ok t) : t.buf = s.buf := by
  unfold flushBlock at h
  split_ifs at h
  · cases h; rfl
  · split at h <;> cases h
    rfl

/-- ByteOut stores its byte whether or not it flushes afterwards (R120). -/
theorem byteOut_buf {s t : State} {b : Byte} (h : byteOut b s = .ok t) :
    t.buf = Memory.write s.buf s.bufCnt.toNat b := by
  unfold byteOut at h
  dsimp only at h
  split_ifs at h
  · exact flushBlock_buf h
  · cases h; rfl

/-! What one more byte adds to `OUT` -/

theorem pushByte_out_of_room {out held : List Byte} (b : Byte) (h : held.length < 254) :
    (pushByte (out, held) b).1 = out := by
  rw [pushByte, if_neg (by simp only [Config.bufCap]; omega)]

theorem pushByte_out_of_last {out held : List Byte} (b : Byte) (h : held.length = 254) :
    (pushByte (out, held) b).1 = out ++ 0xFF#8 :: (held ++ [b]) := by
  rw [pushByte, if_pos (by rw [h])]

/-- Settles O29: `byteOut_spec` gives the count, the output and the frame; the whole buffer is one write. -/
theorem byteOutStoresAndFlushes : Obligations.ByteOutStoresAndFlushes := by
  intro s b hinv
  obtain ⟨t, ht, hstream, hframe⟩ := byteOut_spec hinv b
  have hcount : t.bufCnt.toNat = (s.bufCnt.toNat + 1) % 255 := hstream.count
  have hout : t.out = (pushByte (s.out, heldBytes s) b).1 := congrArg Prod.fst hstream.stream
  have hlen := heldBytes_length hinv
  refine ⟨t, ht, fun j => ?_, fun hroom => ⟨?_, ?_⟩, fun hlast => ⟨?_, ?_⟩, hframe⟩
  · rw [byteOut_buf ht, Memory.read_write]
  · rw [hcount, Nat.mod_eq_of_lt (by omega)]
  · rw [hout, pushByte_out_of_room b (hlen.trans_lt hroom)]
  · exact BitVec.eq_of_toNat_eq (by rw [hcount, hlast]; rfl)
  · rw [hout, pushByte_out_of_last b (hlen.trans hlast)]

/-- Settles O30: the held bytes can be read as one range, which is what FlushBlock outputs. -/
theorem flushBlockOutputsHeldBytes : Obligations.FlushBlockOutputsHeldBytes := by
  intro s _ hheld
  obtain ⟨bytes, hbytes⟩ : ∃ bytes, Memory.readRange s.buf 0 s.bufCnt.toNat = some bytes :=
    Option.isSome_iff_exists.1 (Memory.readRange_isSome.2 fun j _ hj => hheld j (by omega))
  refine ⟨bytes, Memory.readRange_length hbytes,
    fun j hj => (Memory.readRange_getElem? hbytes hj).trans (by rw [Nat.zero_add]), ?_⟩
  by_cases hempty : s.bufCnt = 0#8
  · rw [flushBlock_empty hempty, if_pos hempty, List.append_nil, ← hempty]
  · rw [flushBlock_bytes hempty hbytes, if_neg hempty]
    rfl

end Sys2Proof.Machine

/-! SUPPORT. The phase FAULT, the way into it and the way out: statements O11, O12 and O14 to O16 of 60_exceptions.md
(R130 to R138). -/

namespace Sys2Proof.Machine

/-! In FAULT (R137, R138) -/

section
variable {s : State} (hphase : s.phase = .fault)
include hphase

theorem whenAccepting_of_fault (k : Result) : whenAccepting s k = .fault .faultPhase := if_pos hphase

/-- No command is executed in FAULT (R137). -/
theorem exec_of_fault (i : Instr) : exec i s = .fault .faultPhase := by
  cases i <;> exact whenAccepting_of_fault hphase _

/-- No word is accepted in FAULT, whether or not it decodes (R137). -/
theorem acceptWord_of_fault (w : CmdWord) : acceptWord w s = .fault .faultPhase := by
  unfold acceptWord
  cases decode w with
  | ok i => exact exec_of_fault hphase i
  | error e => exact whenAccepting_of_fault hphase _

theorem step_eq_stepInFault : step s = stepInFault s := if_pos hphase

/-- With no RESET asserted there is no transition out of FAULT (R137). -/
theorem step_of_fault_noReset (hwait : ∀ x ∈ s.inputs, assertsReset x = false) : step s = .fault .faultPhase := by
  rw [step_eq_stepInFault hphase, stepInFault, afterReset_eq_none.2 hwait]

/-- A RESET asserted in FAULT is taken (R138). -/
theorem step_of_fault_reset {rest : List Input} (hreset : afterReset s.inputs = some rest) :
    step s = .next (takeReset { s with inputs := rest }) := by
  rw [step_eq_stepInFault hphase, stepInFault, hreset]

end

/-- Only a RESET among the inputs leaves inputs to go on with (R138). -/
theorem exists_assertsReset_of_afterReset {l rest : List Input} (h : afterReset l = some rest) :
    ∃ x ∈ l, assertsReset x = true := by
  by_contra hnone
  have hwait : ∀ x ∈ l, assertsReset x = false := fun x hx =>
    Bool.eq_false_iff.2 fun hreset => hnone ⟨x, hx, hreset⟩
  rw [afterReset_eq_none.2 hwait] at h
  cases h

/-- Settles O11: every meaning and the step stop at their test of the phase. -/
theorem faultPhaseAcceptsNothing : Obligations.FaultPhaseAcceptsNothing := by
  intro s hphase
  have hready : s.cmdReady = false := bne_eq_false_iff_eq.2 hphase
  exact ⟨hready, hphase, exec_of_fault hphase, acceptWord_of_fault hphase, step_of_fault_noReset hphase⟩

/-- Settles O12: in FAULT commands and words stop, and the one step there is takes a RESET among the inputs. -/
theorem onlyResetLeavesFault : Obligations.OnlyResetLeavesFault := by
  intro s hphase
  refine ⟨fun i t h => ?exec, fun w t h => ?acceptWord, fun rest hin => ?reset, fun t h => ?step⟩
  case exec => rw [exec_of_fault hphase i] at h; cases h
  case acceptWord => rw [acceptWord_of_fault hphase w] at h; cases h
  case reset => exact ⟨_, step_of_fault_reset hphase (by rw [hin, afterReset])⟩
  case step =>
    rw [step_eq_stepInFault hphase] at h
    obtain ⟨rest, hreset, rfl⟩ := stepInFault_next h
    exact ⟨exists_assertsReset_of_afterReset hreset, rfl, rfl, rfl⟩

/-! Entering FAULT (R130, R131, R136) -/

/-- The cause R130 gives each code, for a command executed in a state; `noFault` and code 6 have none (R131). -/
def FaultCause (i : Instr) (s : State) : FaultCode → Prop
  | .noFault => False
  | .illegalCommand => i.wellFormed = false ∨ ∃ a, i = .reserved a
  | .illegalConfig => ∃ a, i = .start a ∧ legalBpp (bppField a) = false
  | .protocol =>
    (∃ a, i = .start a) ∧ s.phase = .run ∨ ((∃ c, i = .sym c) ∨ ∃ a, i = .endFrame a) ∧ s.phase ≠ .run
  | .symbolRange => ∃ c, i = .sym c ∧ symbolInRange s.bpp c = false
  | .emptyInput => ∃ a, i = .endFrame a ∧ s.entValid = false
  | .invariantViolation => False

theorem FaultCause.ne_noFault {i : Instr} {s : State} {code : FaultCode} (h : FaultCause i s code) :
    code ≠ .noFault := by
  rintro rfl
  exact h

/-- A command that ends in FAULT has done the fault entry and nothing else, with a code whose cause holds: each
command's own effect ends in another phase (R130, R136). -/
theorem exec_entersFault {i : Instr} {s t : State} (h : exec i s = .next t) (hfault : t.phase = .fault) :
    s.phase ≠ .fault ∧ ∃ code, t = takeFault code s ∧ FaultCause i s code := by
  obtain ⟨hphase, ⟨code, rfl, hcause⟩ | ⟨_, -, -, -, -, hstart⟩ | ⟨_, -, hrun, -, hsym⟩ | ⟨-, -, -, hend⟩⟩ :=
    exec_cases h
  · refine ⟨hphase, code, rfl, ?_⟩
    obtain ⟨rfl, hillegal⟩ | ⟨rfl, hstart⟩ | ⟨rfl, hframe⟩ | ⟨rfl, hconfig⟩ | ⟨rfl, -, hrange⟩ |
      ⟨rfl, -, ⟨a, rfl⟩, hempty⟩ := hcause
    · exact hillegal
    · exact .inl hstart
    · exact .inr hframe
    · exact hconfig
    · exact hrange
    · exact ⟨a, rfl, hempty⟩
  · cases (startFrame_frame hstart).phase.symm.trans hfault
  · cases hrun.symm.trans ((consumeSymbol_frame hsym).phase.symm.trans hfault)
  · cases (finishFrame_frame hend).phase.symm.trans hfault

/-- Settles O14: what ends in FAULT is a fault entry, of a command or of a word that is none. -/
theorem faultEntryIsPrecise : Obligations.FaultEntryIsPrecise := by
  have hexec (i : Instr) (s t : State) (h : exec i s = .next t) (hfault : t.phase = .fault) :
      t.faultCode ≠ .noFault ∧ t = { s with phase := .fault, faultCode := t.faultCode } := by
    obtain ⟨-, code, rfl, hcause⟩ := exec_entersFault h hfault
    exact ⟨hcause.ne_noFault, rfl⟩
  refine ⟨hexec, fun w s t h hfault => ?_⟩
  obtain ⟨i, -, hi⟩ | ⟨-, -, rfl⟩ := acceptWord_cases h
  · exact hexec i s t hi hfault
  · exact ⟨nofun, rfl⟩

theorem symbolInRange_eq_false_iff {b : BitVec 4} {c : BitVec 8} :
    symbolInRange b c = false ↔ 2 ^ b.toNat ≤ c.toNat := by
  rw [symbolInRange, decide_eq_false_iff_not, Nat.not_lt]

/-- Settles O16: the code taken has its cause, and code 6 has none. -/
theorem faultCodesHaveTheirCause : Obligations.FaultCodesHaveTheirCause := by
  intro i s t h hfault
  obtain ⟨hphase, code, rfl, hcause⟩ := exec_entersFault h hfault
  simp only [takeFault_faultCode]
  refine ⟨?illegalCommand, ?illegalConfig, ?protocol, ?symbolRange, ?emptyInput, ?invariantViolation⟩ <;> rintro rfl
  case illegalCommand => exact hcause
  case illegalConfig => exact hcause
  case protocol =>
    obtain ⟨⟨a, hi⟩, hrun⟩ | ⟨hi, hrun⟩ := hcause
    · exact .inl ⟨a, hi, hrun⟩
    · exact .inr ⟨hi, phase_idle_or_done hrun hphase⟩
  case symbolRange =>
    obtain ⟨c, hi, hrange⟩ := hcause
    exact ⟨c, hi, symbolInRange_eq_false_iff.1 hrange⟩
  case emptyInput => exact hcause
  case invariantViolation => exact hcause

/-! The order of the checks (R133): what a command answers at each check it fails -/

section
variable {s : State}

theorem exec_start_reservedBits {a : BitVec 8} (hphase : s.phase ≠ .fault) (ha : startBitsClear a = false) :
    exec (.start a) s = .next (takeFault .illegalCommand s) :=
  (whenAccepting_of_ne hphase _).trans (if_pos ha)

theorem exec_start_inRun {a : BitVec 8} (hrun : s.phase = .run) (ha : startBitsClear a = true) :
    exec (.start a) s = .next (takeFault .protocol s) := by
  change execStart a s = _
  rw [execStart, whenAccepting_of_ne (by simp [hrun]), if_neg (by simp [ha]), if_pos hrun]

theorem exec_sym_outsideRun {c : BitVec 8} (hphase : s.phase ≠ .fault) (hrun : s.phase ≠ .run) :
    exec (.sym c) s = .next (takeFault .protocol s) :=
  (whenAccepting_of_ne hphase _).trans (if_pos hrun)

theorem exec_endFrame_reservedBits {a : BitVec 8} (hphase : s.phase ≠ .fault) (ha : a ≠ 0#8) :
    exec (.endFrame a) s = .next (takeFault .illegalCommand s) :=
  (whenAccepting_of_ne hphase _).trans (if_pos (beq_eq_false_iff_ne.2 ha))

theorem exec_endFrame_outsideRun (hphase : s.phase ≠ .fault) (hrun : s.phase ≠ .run) :
    exec (.endFrame 0#8) s = .next (takeFault .protocol s) := by
  change execEnd 0#8 s = _
  rw [execEnd, whenAccepting_of_ne hphase, if_neg (by decide), if_pos hrun]

theorem exec_endFrame_noPrefix (hrun : s.phase = .run) (hvalid : s.entValid = false) :
    exec (.endFrame 0#8) s = .next (takeFault .emptyInput s) := by
  change execEnd 0#8 s = _
  rw [execEnd, whenAccepting_of_ne (by simp [hrun]), if_neg (by decide), if_neg (not_not.2 hrun), if_pos hvalid]

end

/-- Settles O15: each clause is one check, with those before it passed. -/
theorem faultPriority : Obligations.FaultPriority := by
  intro s hphase
  refine ⟨fun w e he => acceptWord_of_decode_error he hphase,
    fun a => reservedRaisesIllegalCommand s a hphase,
    fun a ha => exec_start_reservedBits hphase ha,
    fun a ha hrun => exec_start_inRun hrun ha,
    fun a ha hrun hb => ?_,
    fun c hrun => exec_sym_outsideRun hphase hrun,
    fun c hrun hc => exec_sym_outOfRange hrun (symbolInRange_eq_false_iff.2 hc),
    fun a ha => exec_endFrame_reservedBits hphase ha,
    exec_endFrame_outsideRun hphase,
    exec_endFrame_noPrefix⟩
  rw [exec_start_illegalBpp hphase ha hb, if_neg hrun]
  rfl

end Sys2Proof.Machine

/-! SUPPORT. The RESET event, RESET inside a step, and a word that waits in FAULT: statements O9, O10 and O53 of
70_reset_and_hazards.md (R150, R151, R154). -/

namespace Sys2Proof.Machine

/-! RESET at a command boundary (R150) -/

/-- RESET presented next is taken in every phase: in FAULT as the RESET asserted, elsewhere as the next input. -/
theorem step_reset {s : State} {rest : List Input} (hin : s.inputs = .reset :: rest) :
    step s = .next (takeReset { s with inputs := rest }) := by
  by_cases hphase : s.phase = .fault
  · exact step_of_fault_reset hphase (by rw [hin, afterReset])
  · rw [step_eq_stepAccepting hphase, stepAccepting, hin]

/-- A well-formed START with a legal `bpp` outside a frame enters RUN (R80). -/
theorem exec_start_entersRun {s : State} {a : BitVec 8} (hphase : s.phase = .idle ∨ s.phase = .done)
    (ha : startBitsClear a = true) (hb : legalBpp (bppField a) = true) :
    ∃ u, exec (.start a) s = .next u ∧ u.phase = .run := by
  obtain ⟨u, -, hexec, hrun, -⟩ := startBeginsFrame s a hphase ha hb
  exact ⟨u, hexec, hrun⟩

/-- In IDLE every command but START faults: SYM and END complete only in RUN (R83). -/
theorem exec_of_idle {i : Instr} {s u : State} (hidle : s.phase = .idle) (h : exec i s = .next u) :
    u.phase = .fault ∨ ∃ a, i = .start a := by
  obtain ⟨-, hfault | ⟨hstart, -, -⟩ | ⟨-, hrun, -⟩ | ⟨-, hrun, -, -⟩⟩ := phaseTransitions i s u h
  · exact .inl hfault
  · exact .inr hstart
  · cases hidle.symm.trans hrun
  · cases hidle.symm.trans hrun

/-- Settles O9: RESET is taken whatever the phase, its values are those `takeReset` writes, and they include the phase
IDLE, in which only START does not fault. -/
theorem resetTakenInEveryPhase : Obligations.ResetTakenInEveryPhase := by
  intro s rest hin
  have hidle := takeReset_phase { s with inputs := rest }
  exact ⟨_, step_reset hin, hidle, rfl, rfl, rfl, rfl, fun _ => rfl, rfl, rfl,
    fun _ ha hb => exec_start_entersRun (.inl hidle) ha hb, fun _ _ h => exec_of_idle hidle h⟩

/-! RESET inside a step (R151) -/

/-- A list that begins `m`, extended by a beginning of what `m` has beyond it, still begins `m`. -/
theorem append_take_drop_prefix {α : Type} {l m : List α} (h : l <+: m) (n : Nat) :
    l ++ (m.drop l.length).take n <+: m := by
  obtain ⟨added, rfl⟩ := h
  rw [List.drop_left]
  exact (List.prefix_append_right_inj l).2 (List.take_prefix n added)

/-- RESET inside the step of a word that has a next state leaves the RESET state, over what has left the block (R151). -/
theorem cutByReset_of_next {w : CmdWord} {s u : State} (h : acceptWord w s = .next u) :
    cutByReset w s =
      .next (takeReset { s with out := s.out ++ (u.out.drop s.out.length).take (Config.cutLength s.freeCount) }) := by
  rw [cutByReset, h]

theorem stepAccepting_cutWord {s : State} {w : CmdWord} {rest : List Input} (h : s.inputs = .cutWord w :: rest) :
    stepAccepting s = cutByReset w { s with inputs := rest } := by
  rw [stepAccepting, h]

/-- Settles O10: the word alone would append some bytes to `OUT`, and the cut step appends a beginning of them. -/
theorem resetInsideStepCutsOutput : Obligations.ResetInsideStepCutsOutput := by
  intro s u w rest hphase hin hword
  have hstep : step s = .next (takeReset { s with
      inputs := rest, out := s.out ++ (u.out.drop s.out.length).take (Config.cutLength s.freeCount) }) :=
    calc step s = stepAccepting s := step_eq_stepAccepting hphase
      _ = cutByReset w { s with inputs := rest } := stepAccepting_cutWord hin
      _ = _ := cutByReset_of_next hword
  have hgrows : s.out <+: u.out := acceptWord_out_prefix (s := { s with inputs := rest }) hword
  exact ⟨_, hstep, rfl, rfl, rfl, rfl, rfl, fun _ => rfl, rfl, List.prefix_append _ _,
    append_take_drop_prefix hgrows _⟩

/-! A word that waits in FAULT (R154) -/

theorem cmdReady_iff (s : State) : s.cmdReady = true ↔ s.phase ≠ .fault := bne_iff_ne

/-- A RESET asserted in FAULT behind words that wait is taken, and the words still presented are before what the RESET
leaves of its own input (R154). -/
theorem step_of_fault_waiting {s : State} {waiting inputs rest : List Input} (hphase : s.phase = .fault)
    (hwait : ∀ x ∈ waiting, assertsReset x = false) (hin : s.inputs = waiting ++ inputs)
    (hreset : afterReset inputs = some rest) :
    step s = .next (takeReset { s with inputs := waiting.filter staysPresented ++ rest }) :=
  step_of_fault_reset hphase (by rw [hin, afterReset_append hwait, hreset, Option.map_some])

/-- Settles O53: without a RESET the step stops; the RESET event leaves nothing of its own input, and a word cut while
it waits stays presented. -/
theorem waitingWordIsNotLost : Obligations.WaitingWordIsNotLost := by
  refine ⟨cmdReady_iff, fun s waiting rest hphase hwait => ⟨fun hin => ?noReset, fun hin => ?reset, fun w hin => ?cut⟩⟩
  case noReset =>
    subst hin
    exact step_of_fault_noReset hphase hwait
  case reset => exact ⟨_, step_of_fault_waiting hphase hwait hin rfl, rfl, rfl, rfl, rfl⟩
  case cut => exact ⟨_, step_of_fault_waiting hphase hwait hin rfl, rfl, rfl, rfl, rfl⟩

end Sys2Proof.Machine

/-! SUPPORT. Safe states stay safe and always step: statements O41 to O43 of 10_state.md (R24), with O7 of
60_exceptions.md (R145). -/

namespace Sys2Proof.Machine

/-- Settles O7: the block waits when nothing is presented. -/
theorem stepWaitsForInput : Obligations.StepWaitsForInput := by
  intro s hphase hin
  rw [step_eq_stepAccepting hphase, stepAccepting, hin]

/-! The parts of the invariant -/

/-- In RUN SYM and END may emit `ent`: it is below `free_ent`, which the width in force holds. -/
theorem RunInv.emitReady {s : State} (h : RunInv s) (hflag : s.clearFlag = false) (hvalid : s.entValid = true) :
    EmitReady s :=
  ⟨h.bpp, h.width, (h.ent hvalid).1.trans_le h.fits, hflag, h.stream⟩

/-- Settles O43: what SYM and END need of a state is part of items 1 to 8 of R24. -/
theorem prefixFitsCurrentWidth : Obligations.PrefixFitsCurrentWidth := by
  intro s h hphase hvalid
  have hrun := h.running hphase
  have hready := hrun.emitReady h.clearFlag hvalid
  exact ⟨hready, hready.ent, hrun.ent hvalid⟩

theorem BlockInv.faultCode_of_phase {s : State} (h : BlockInv s) (hphase : s.phase ≠ .fault) :
    s.faultCode = .noFault := not_not.1 (mt h.faultCode.2 hphase)

theorem BlockInv.faultCode_of_run {s : State} (h : BlockInv s) (hphase : s.phase = .run) : s.faultCode = .noFault :=
  h.faultCode_of_phase (by simp [hphase])

/-- The invariant in RUN: R24, and what every phase asks for. -/
theorem blockInv_of_run {s : State} (hmem : s.memoryWf) (hphase : s.phase = .run) (hcode : s.faultCode = .noFault)
    (hflag : s.clearFlag = false) (hrun : RunInv s) : BlockInv s where
  memory := hmem
  faultCode := by simp [hphase, hcode]
  noCodeSix := by simp [hcode]
  clearFlag := hflag
  noPrefix := by simp [hphase]
  drained := by simp [hphase]
  running _ := hrun

/-- What passes through the buffer leaves both memories in canonical form. -/
theorem Streamed.memoryWf {bytes : List Byte} {s t : State} (h : Streamed bytes s t) (hht : t.ht = s.ht)
    (hmem : s.memoryWf) : t.memoryWf := ⟨hht ▸ hmem.1, h.wf hmem.2⟩

/-- The accumulator and the buffer alone decide items 7 and 8 of R24. -/
theorem StreamInv.congr {s t : State} (h : StreamInv s)
    (ht : (t.acc, t.curBits, t.buf, t.bufCnt) = (s.acc, s.curBits, s.buf, s.bufCnt)) : StreamInv t := by
  simp only [Prod.mk.injEq] at ht
  obtain ⟨hacc, hbits, hbuf, hcount⟩ := ht
  exact ⟨⟨hcount ▸ h.bufCnt, by rw [hbuf, hcount]; exact h.held⟩, hbits ▸ h.curBits, by rw [hacc, hbits]; exact h.acc⟩

/-- A new `ent` has to be legal; what is still presented does not matter. -/
theorem RunInv.congr {s t : State} (h : RunInv s)
    (ht : t = { s with ent := t.ent, entValid := t.entValid, inputs := t.inputs })
    (hent : t.entValid = true → legalPrefix s.bpp s.freeEnt.toNat t.ent.toNat) : RunInv t := by
  rw [ht]
  exact ⟨h.bpp, h.width, h.free, h.fits, hent, h.stream.congr rfl, h.table⟩

/-- What is still presented does not matter to the invariant. -/
theorem BlockInv.setInputs {s : State} (h : BlockInv s) (rest : List Input) : BlockInv { s with inputs := rest } := by
  refine ⟨h.memory, h.faultCode, h.noCodeSix, h.clearFlag, h.noPrefix, h.drained, fun hphase => ?_⟩
  have hrun := h.running hphase
  exact hrun.congr rfl hrun.ent

/-- RESET leaves a safe state, whatever the state it is taken in (R150). -/
theorem blockInv_takeReset (s : State) : BlockInv (takeReset s) where
  memory := memoryWf_takeReset s
  faultCode := by simp
  noCodeSix := by simp
  clearFlag := rfl
  noPrefix _ := rfl
  drained := by simp
  running := by simp

/-- A fault entry leaves a safe state (R136). -/
theorem BlockInv.takeFault {s : State} (h : BlockInv s) {code : FaultCode} (hcode : code ≠ .noFault)
    (hsix : code ≠ .invariantViolation) : BlockInv (takeFault code s) where
  memory := h.memory
  faultCode := by simp [hcode]
  noCodeSix := hsix
  clearFlag := h.clearFlag
  noPrefix := by simp
  drained := by simp
  running := by simp

/-! Items 2 to 5 of R24 are what `FrameInv` says of the variables of R84 -/

/-- The variables of R84 that the machine holds in registers. -/
def frameVars (s : State) : FrameState :=
  { map := [], free := s.freeEnt.toNat, width := s.nBits.toNat, code := s.ent.toNat }

theorem RunInv.frameInv {s : State} (h : RunInv s) (hvalid : s.entValid = true) : FrameInv s.bpp (frameVars s) :=
  ⟨h.width, h.free, h.fits, h.ent hvalid, fun _ _ hl => nomatch hl⟩

/-- Registers that hold variables in range, with items 1 and 7 to 10 of R24. -/
theorem FrameInv.runInv {b : BitVec 4} {f : FrameState} {s : State} (hf : FrameInv b f) (hb : legalBpp b = true)
    (hbpp : s.bpp = b) (hwidth : s.nBits.toNat = f.width) (hfree : s.freeEnt.toNat = f.free)
    (hent : s.entValid = true → s.ent.toNat = f.code) (hstream : StreamInv s)
    (htable : ∃ tbl, s.ht = some tbl ∧ TableInv b f.free tbl) : RunInv s := by
  subst hbpp
  rw [← hfree] at htable
  refine ⟨hb, hwidth ▸ hf.width, hfree ▸ hf.free, ?_, fun hvalid => ?_, hstream, htable⟩
  · rw [hwidth, hfree]; exact hf.fits
  · rw [hfree, hent hvalid]; exact hf.code

/-! The commands' own effects complete, in a safe state (R24) -/

/-- START outside a frame (R80): the first `CLEAR` leaves items 1 to 10 of R24, with an empty table. -/
theorem BlockInv.startFrame {s : State} {b : BitVec 4} (h : BlockInv s) (hphase : s.phase ≠ .fault)
    (hb : legalBpp b = true) : ∃ t, startFrame b s = .ok t ∧ BlockInv t := by
  obtain ⟨t, ht, hstream, -, -, hinv, hwidth, hflag, hframe⟩ := startFrame_spec s hb
  have hfree : t.freeEnt.toNat = firstCode b := by rw [hframe.freeEnt]; exact firstCode_toNat hb
  have hent : t.entValid = true → t.ent.toNat = 0 := fun _ => by rw [hframe.ent]; rfl
  have hf := frameInv_restart hb (Nat.two_pow_pos b.toNat)
  have hmem : (beginFrame b s).memoryWf := ⟨(memoryWf_clearTable h.memory).1, h.memory.2⟩
  exact ⟨t, ht, blockInv_of_run (hstream.memoryWf hframe.ht hmem) hframe.phase
    (hframe.faultCode.trans (h.faultCode_of_phase hphase)) hflag
    (hf.runInv hb hframe.bpp hwidth hfree hent hinv ⟨_, hframe.ht, tableInv_empty (liveEntries_clear _)⟩)⟩

/-- END (R82): the frame is over, with nothing waiting. -/
theorem BlockInv.finishFrame {s : State} (h : BlockInv s) (hphase : s.phase = .run) (hvalid : s.entValid = true) :
    ∃ t, finishFrame s = .ok t ∧ BlockInv t := by
  obtain ⟨u, t, hstream, ht, -, hbuf, hacc, hbits, hcount, -, hflag, hframe⟩ :=
    finishFrame_spec ((h.running hphase).emitReady h.clearFlag hvalid)
  have hcode : t.faultCode = .noFault := hframe.faultCode.trans (h.faultCode_of_run hphase)
  refine ⟨t, ht, ⟨⟨hframe.ht ▸ h.memory.1, hbuf ▸ hstream.wf h.memory.2⟩, ?_, ?_, hflag, fun _ => hframe.entValid,
    fun _ => ⟨hacc, hbits, hcount⟩, ?_⟩⟩
  · simp [hframe.phase, hcode]
  · simp [hcode]
  · simp [hframe.phase]

/-- While there is room the next code is a 12-bit code, and counting it does not overflow `free_ent` (R15, R81). -/
theorem freeEnt_of_room {v : BitVec 13} (h : v.toNat < Config.maxMaxCode) :
    (v.setWidth 12).toNat = v.toNat ∧ (v + 1#13).toNat = v.toNat + 1 := by
  simp only [Config.maxMaxCode] at h
  rw [BitVec.toNat_setWidth, BitVec.toNat_add, BitVec.toNat_ofNat]
  omega

section
variable {s : State} {c : BitVec 8} {tbl : List (Nat × HtEntry)} {i : Nat} (h : BlockInv s) (hphase : s.phase = .run)
include h hphase

/-- A first symbol is a legal `ent` (R81). -/
theorem BlockInv.takePrefix (hc : c.toNat < 2 ^ s.bpp.toNat) : BlockInv (takePrefix c s) := by
  have hrun := h.running hphase
  refine blockInv_of_run h.memory hphase (h.faultCode_of_run hphase) h.clearFlag (hrun.congr rfl fun _ => ?_)
  rw [takePrefix_ent, toNat_setWidth_symbol]
  exact legalPrefix_symbol hrun.bpp hrun.free.1 hc

/-- After a hit `ent` is an assigned code (R81). -/
theorem BlockInv.extendPrefix (htbl : TableInv s.bpp s.freeEnt.toNat tbl) {x : Nat × HtEntry}
    (hx : x ∈ liveEntries tbl) : BlockInv { s with ent := x.2.code } := by
  have hrun := h.running hphase
  obtain ⟨hlo, hhi⟩ := (htbl.codes _).1 ⟨x, hx, rfl⟩
  exact blockInv_of_run h.memory hphase (h.faultCode_of_run hphase) h.clearFlag
    (hrun.congr rfl fun _ => legalPrefix_assigned hlo hhi)

variable (hvalid : s.entValid = true) (hc : c.toNat < 2 ^ s.bpp.toNat)
include hvalid hc

/-- After a miss with room the pair is in the table and `ent` is the symbol (R81). -/
theorem BlockInv.enterMissed (hht : s.ht = some tbl) (htbl : TableInv s.bpp s.freeEnt.toNat tbl)
    (hp : probeTable tbl s.ent c = .ok (false, i)) (hroom : s.freeEnt.toNat < Config.maxMaxCode) :
    ∃ t, missSymbol i c s = .ok t ∧ BlockInv t := by
  have hrun := h.running hphase
  obtain ⟨u, hu, hstream, -, -, hinv, hwidth, hflag, hframe⟩ := emitPrefix_spec (hrun.emitReady h.clearFlag hvalid)
  have hnext : u.freeEnt.toNat = s.freeEnt.toNat := congrArg BitVec.toNat hframe.freeEnt
  obtain ⟨hcode, hfree⟩ := freeEnt_of_room (hnext.trans_lt hroom)
  rw [hnext] at hcode hfree
  have htbl' : TableInv s.bpp (s.freeEnt.toNat + 1)
      (Memory.write (u.ht.getD []) i { valid := true, key := keyOf u.ent c, code := u.freeEnt.setWidth 12 }) := by
    rw [← hcode] at htbl ⊢
    rw [hframe.ht, hht, hframe.ent, Option.getD_some]
    exact tableInv_insert htbl (hcode ▸ hrun.free.1) (hcode ▸ hrun.ent hvalid) hc hp
  have hmem := memoryWf_insertEntry u.ent c (u.freeEnt.setWidth 12) (hstream.memoryWf hframe.ht h.memory)
    (probeTable_slot_lt hp)
  have hf' := frameInv_enter hrun.bpp (hrun.frameInv hvalid) hc hroom
  refine ⟨_, missSymbol_enter hu (hnext.trans_lt hroom), blockInv_of_run hmem (hframe.phase.trans hphase)
    (hframe.faultCode.trans (h.faultCode_of_run hphase)) hflag ?_⟩
  exact FrameInv.runInv (s := restartPrefix c (enterString i c u)) hf' hrun.bpp hframe.bpp hwidth hfree
    (fun _ => toNat_setWidth_symbol c) (hinv.congr rfl) ⟨_, rfl, htbl'⟩

/-- After a miss with a full table the table is empty and `ent` is the symbol (R81). -/
theorem BlockInv.restartMissed (hfull : ¬ s.freeEnt.toNat < Config.maxMaxCode) :
    ∃ t, missSymbol i c s = .ok t ∧ BlockInv t := by
  have hrun := h.running hphase
  obtain ⟨u, t, hu, ht, hstream, -, -, hinv, hwidth, hflag, hframe⟩ :=
    emitThenRestart_spec (hrun.emitReady h.clearFlag hvalid)
  have hfree : t.freeEnt.toNat = firstCode s.bpp := by rw [hframe.freeEnt]; exact firstCode_toNat hrun.bpp
  have hmem : t.memoryWf := ⟨hframe.ht ▸ (memoryWf_clearTable h.memory).1, hstream.wf h.memory.2⟩
  refine ⟨_, missSymbol_restart hu ((emitCode_frame hu).freeEnt.symm ▸ hfull) ht,
    blockInv_of_run hmem (hframe.phase.trans hphase)
      (hframe.faultCode.trans (h.faultCode_of_run hphase)) hflag ?_⟩
  exact FrameInv.runInv (s := restartPrefix c t) (frameInv_restart hrun.bpp hc) hrun.bpp hframe.bpp hwidth hfree
    (fun _ => toNat_setWidth_symbol c) (hinv.congr rfl)
    ⟨_, hframe.ht, tableInv_empty (liveEntries_clear _)⟩

omit hvalid in
/-- SYM with a symbol of the palette (R81): a first symbol; a hit; a miss with room; a miss with a full table. -/
theorem BlockInv.consumeSymbol : ∃ t, consumeSymbol c s = .ok t ∧ BlockInv t := by
  cases hvalid : s.entValid with
  | false => exact ⟨_, consumeSymbol_first hvalid, h.takePrefix hphase hc⟩
  | true =>
    have hrun := h.running hphase
    obtain ⟨tbl, hht, htbl⟩ := hrun.table
    obtain ⟨i, en, hp, hr, hmem, -⟩ | ⟨i, hp, -⟩ := probeTable_of_inv hrun.bpp hrun.free.2 htbl s.ent c
    · exact ⟨_, consumeSymbol_hit hvalid hht hp hr, h.extendPrefix hphase htbl hmem⟩
    · rw [consumeSymbol_miss hvalid hht hp]
      by_cases hroom : s.freeEnt.toNat < Config.maxMaxCode
      · exact h.enterMissed hphase hvalid hc hht htbl hp hroom
      · exact h.restartMissed hphase hvalid hc hroom

end

/-! Every step outside FAULT completes and keeps the invariant -/

section
variable {s : State} (h : BlockInv s) (hphase : s.phase ≠ .fault)
include h hphase

theorem BlockInv.exec_start (a : BitVec 8) : ∃ t, exec (.start a) s = .next t ∧ BlockInv t := by
  cases ha : startBitsClear a with
  | false => exact ⟨_, exec_start_reservedBits hphase ha, h.takeFault nofun nofun⟩
  | true =>
    by_cases hrun : s.phase = .run
    · exact ⟨_, exec_start_inRun hrun ha, h.takeFault nofun nofun⟩
    · cases hb : legalBpp (bppField a) with
      | false =>
        have hillegal := exec_start_illegalBpp hphase ha hb
        rw [if_neg hrun] at hillegal
        exact ⟨_, hillegal, h.takeFault nofun nofun⟩
      | true =>
        obtain ⟨t, ht, hinv⟩ := h.startFrame hphase hb
        exact ⟨t, exec_start_ok (phase_idle_or_done hrun hphase) ha hb ht, hinv⟩

theorem BlockInv.exec_sym (c : BitVec 8) : ∃ t, exec (.sym c) s = .next t ∧ BlockInv t := by
  by_cases hrun : s.phase = .run
  · cases hc : symbolInRange s.bpp c with
    | false => exact ⟨_, exec_sym_outOfRange hrun hc, h.takeFault nofun nofun⟩
    | true =>
      have hc := of_decide_eq_true hc
      obtain ⟨t, ht, hinv⟩ := h.consumeSymbol hrun hc
      exact ⟨t, exec_sym_ok hrun hc ht, hinv⟩
  · exact ⟨_, exec_sym_outsideRun hphase hrun, h.takeFault nofun nofun⟩

theorem BlockInv.exec_endFrame (a : BitVec 8) : ∃ t, exec (.endFrame a) s = .next t ∧ BlockInv t := by
  by_cases ha : a = 0#8
  · subst ha
    by_cases hrun : s.phase = .run
    · cases hvalid : s.entValid with
      | false => exact ⟨_, exec_endFrame_noPrefix hrun hvalid, h.takeFault nofun nofun⟩
      | true =>
        obtain ⟨t, ht, hinv⟩ := h.finishFrame hrun hvalid
        exact ⟨t, exec_endFrame_ok hrun hvalid ht, hinv⟩
    · exact ⟨_, exec_endFrame_outsideRun hphase hrun, h.takeFault nofun nofun⟩
  · exact ⟨_, exec_endFrame_reservedBits hphase ha, h.takeFault nofun nofun⟩

/-- A command faults at the first check it fails, or passes them all and completes (R133). -/
theorem BlockInv.exec (i : Instr) : ∃ t, exec i s = .next t ∧ BlockInv t := by
  cases i with
  | start a => exact h.exec_start hphase a
  | sym c => exact h.exec_sym hphase c
  | endFrame a => exact h.exec_endFrame hphase a
  | reserved a => exact ⟨_, whenAccepting_of_ne hphase _, h.takeFault nofun nofun⟩

/-- A word that is no command faults (R61, R62). -/
theorem BlockInv.acceptWord (w : CmdWord) : ∃ t, acceptWord w s = .next t ∧ BlockInv t := by
  cases hd : decode w with
  | ok i => rw [acceptWord_eq_exec hd]; exact h.exec hphase i
  | error e => exact ⟨_, acceptWord_of_decode_error hd hphase, h.takeFault nofun nofun⟩

/-- Each input presented next has a step, and so has none (R145, R150, R151). -/
theorem BlockInv.step : ∃ t, step s = .next t ∧ BlockInv t := by
  rw [step_eq_stepAccepting hphase]
  cases hin : s.inputs with
  | nil => exact ⟨s, by rw [stepAccepting, hin], h⟩
  | cons x rest =>
    have hword (w : CmdWord) := (h.setInputs rest).acceptWord hphase w
    cases x with
    | word w => rw [stepAccepting_eq_acceptWord (.inl hin)]; exact hword w
    | wordUntilReset w => rw [stepAccepting_eq_acceptWord (.inr hin)]; exact hword w
    | reset => exact ⟨_, by rw [stepAccepting, hin], blockInv_takeReset _⟩
    | cutWord w =>
      obtain ⟨u, hu, -⟩ := hword w
      rw [stepAccepting_cutWord hin]
      exact ⟨_, cutByReset_of_next hu, blockInv_takeReset _⟩

end

/-- Settles O41: outside FAULT every step completes in a safe state, and a step in FAULT is a RESET. -/
theorem stepKeepsInvariant : Obligations.StepKeepsInvariant := by
  intro s t h hstep
  by_cases hphase : s.phase = .fault
  · rw [step_eq_stepInFault hphase] at hstep
    obtain ⟨rest, -, rfl⟩ := stepInFault_next hstep
    exact blockInv_takeReset _
  · obtain ⟨u, hu, hinv⟩ := h.step hphase
    obtain rfl : u = t := Host.Outcome.next.inj (hu.symm.trans hstep)
    exact hinv

/-- Settles O42: outside FAULT every step completes, and in FAULT only a missing RESET stops it. -/
theorem safeStateAlwaysSteps : Obligations.SafeStateAlwaysSteps := by
  intro s h
  refine ⟨fun hphase => (h.step hphase).imp fun _ ht => ht.1, fun hphase r hr => ?_⟩
  cases hreset : afterReset s.inputs with
  | none =>
    have hwait := afterReset_eq_none.1 hreset
    rw [step_of_fault_noReset hphase hwait] at hr
    exact ⟨(Host.Outcome.fault.inj hr).symm, hwait⟩
  | some rest =>
    rw [step_of_fault_reset hphase hreset] at hr
    cases hr

end Sys2Proof.Machine

/-! SUPPORT. Probe ends, and reads the table's map: statements O36 and O37 of 41_string_table.md (R105, R106). -/

namespace Sys2Proof.Machine

/-- Settles O36: the slots passed before the search ends are those of different valid entries. -/
theorem probeTerminates : Obligations.ProbeTerminates := by
  intro tbl e c hlive
  obtain ⟨hit, i, hp⟩ := probeTable_terminates e c (t := tbl) (by simp only [Config.hsize]; omega)
  obtain ⟨n, hn, hi, -, hpassed⟩ := (probeTable_ok_iff tbl e c hit i).1 hp
  exact ⟨hit, i, n, hp, passed_le_live hn.le hpassed, probeTable_slot_lt hp, hi⟩

/-- The keys of a table of the invariant differ, so a valid entry is found by its key (R24 item 10). -/
theorem TableInv.eq_of_key {b : BitVec 4} {free : Nat} {tbl : List (Nat × HtEntry)} (h : TableInv b free tbl)
    {x y : Nat × HtEntry} (hx : x ∈ liveEntries tbl) (hy : y ∈ liveEntries tbl) (hkey : x.2.key = y.2.key) : x = y :=
  List.inj_on_of_nodup_map h.keysDiffer hx hy hkey

/-- Settles O37: a hit is at the one valid entry with the pair's key, and a miss excludes that there is one. -/
theorem probeReadsTheMap : Obligations.ProbeReadsTheMap := by
  intro b free tbl e c hb hfree htbl
  refine ⟨fun code hcode => ?mapped, fun hnone => ?unmapped⟩
  case mapped =>
    obtain ⟨x, hx, hkey, rfl⟩ := tableMaps_iff_key.1 hcode
    obtain ⟨i, en, hp, hr, hmem, hkey'⟩ | ⟨i, -, hmiss⟩ := probeTable_of_inv hb hfree htbl e c
    · obtain rfl := htbl.eq_of_key hx hmem (hkey.trans hkey'.symm)
      exact ⟨i, en, hp, hr, rfl⟩
    · exact absurd hkey (hmiss x hx)
  case unmapped =>
    obtain ⟨i, en, -, -, hmem, hkey⟩ | ⟨i, hp, -⟩ := probeTable_of_inv hb hfree htbl e c
    · exact absurd (tableMaps_iff_key.2 ⟨_, hmem, hkey, rfl⟩) (hnone en.code)
    · exact ⟨i, hp, lookSlot_eq_empty_iff.1 (probeTable_miss_empty hp)⟩

end Sys2Proof.Machine

/-! SUPPORT. The closed form of a data code's width: statement O49 of 30_encoding.md (R65). -/

namespace Sys2Proof.Machine

/-- `bitlength(x)` bits are the fewest that hold `x` (R65). -/
theorem bitLength_le_iff {x w : Nat} : bitLength x ≤ w ↔ x < 2 ^ w := by
  unfold bitLength
  split_ifs with h0
  · simp [h0]
  · rw [Nat.succ_le_iff, Nat.log2_lt h0]

theorem bitLength_mono {x y : Nat} (h : x ≤ y) : bitLength x ≤ bitLength y :=
  bitLength_le_iff.2 (h.trans_lt (bitLength_le_iff.1 le_rfl))

/-- The next number needs at most one bit more. -/
theorem bitLength_succ_le (x : Nat) : bitLength (x + 1) ≤ bitLength x + 1 := by
  have hx : x < 2 ^ bitLength x := bitLength_le_iff.1 le_rfl
  rw [bitLength_le_iff, pow_succ]
  omega

/-- The second branch of the closed form covers the first data code too: `FIRST - 1` needs `ICS + 1` bits. -/
theorem dataCodeWidth_eq {b : BitVec 4} (hb : legalBpp b = true) {j : Nat} (hj : 1 ≤ j) :
    dataCodeWidth b j = min Config.maxBits (max (ics b + 1) (bitLength (firstCode b + j - 2))) := by
  unfold dataCodeWidth
  split_ifs with h1
  · obtain ⟨-, hics, hclear, -, -, hpow⟩ := legalBpp_bounds hb
    have hfits : bitLength (firstCode b + j - 2) ≤ ics b + 1 :=
      bitLength_le_iff.2 (by simp only [firstCode_eq]; omega)
    simp only [Config.maxBits]
    omega
  · rfl

/-- The width rule on a clamped bit length gives the clamped bit length of the next number (R65, R112). -/
theorem widen_min_max_bitLength (x m : Nat) :
    widen (x + 1) (min Config.maxBits (max m (bitLength x))) =
      min Config.maxBits (max m (bitLength (x + 1))) := by
  have hmono := bitLength_mono (Nat.le_succ x)
  have hsucc := bitLength_succ_le x
  have hfits := bitLength_le_iff (x := x + 1) (w := min Config.maxBits (max m (bitLength x)))
  have hpos := Nat.two_pow_pos (min Config.maxBits (max m (bitLength x)))
  unfold widen
  simp only [Config.maxBits, Nat.succ_eq_add_one] at *
  split_ifs with hgrow
  · omega
  · omega

/-- Settles O49: the closed form is a clamped bit length, and the width rule follows it from each number to the next. -/
theorem dataCodeWidthClosedForm : Obligations.DataCodeWidthClosedForm := by
  intro b hb
  refine ⟨if_pos le_rfl, fun j hj _ => ?_⟩
  have hfirst : 2 ≤ firstCode b := Nat.le_add_left 2 _
  rw [dataCodeWidth_eq hb hj, dataCodeWidth_eq hb (Nat.le_succ_of_le hj),
    show firstCode b + j - 1 = firstCode b + j - 2 + 1 by omega,
    show firstCode b + (j + 1) - 2 = firstCode b + j - 2 + 1 by omega]
  exact widen_min_max_bitLength _ _

end Sys2Proof.Machine

/-! SUPPORT. The standard decoder reads a frame back: statement O47 of 42_code_emit.md (R115). -/

namespace Sys2Proof.Machine

/-! The strings the codes stand for -/

/-- The string of a code, when `strings` are those of the codes from `FIRST` on. -/
def codeString (size : Nat) (strings : List (List Nat)) (k : Nat) : Option (List Nat) :=
  if k < 2 ^ size then some [k] else if k < 2 ^ size + 2 then none else strings[k - (2 ^ size + 2)]?

/-- The decoder's `table[code]` is the string of the code in its table (R115). -/
theorem string_eq_codeString (size : Nat) (d : DecoderState) (k : Nat) :
    d.string size k = codeString size d.strings k := rfl

section
variable {size k : Nat} {strings : List (List Nat)}

theorem codeString_symbol (hk : k < 2 ^ size) : codeString size strings k = some [k] := if_pos hk

/-- The last string of a table is that of the code below the next one. -/
theorem codeString_last (last : List Nat) :
    codeString size (strings ++ [last]) (2 ^ size + 2 + strings.length) = some last := by
  rw [codeString, if_neg (by omega), if_neg (by omega), Nat.add_sub_cancel_left, List.getElem?_concat_length]

/-- A longer table keeps the strings of the codes before. -/
theorem codeString_append {str : List Nat} (h : codeString size strings k = some str) (more : List (List Nat)) :
    codeString size (strings ++ more) k = some str := by
  unfold codeString at h ⊢
  split_ifs at h ⊢ with hsym hres
  · exact h
  · exact (List.getElem?_append_left (List.getElem?_eq_some_iff.1 h).1).trans h

/-- With no string in the table only the symbols stand for one. -/
theorem lt_of_codeString_nil {str : List Nat} (h : codeString size [] k = some str) : k < 2 ^ size := by
  by_contra hk
  rw [codeString, if_neg hk] at h
  split_ifs at h
  cases h

/-- Below the table's end, the string of a code is that in the table without the last one. -/
theorem codeString_dropLast {last : List Nat} (hk : k < 2 ^ size + 2 + strings.length) :
    codeString size (strings ++ [last]) k = codeString size strings k := by
  unfold codeString
  split_ifs with hsym hres
  · rfl
  · rfl
  · exact List.getElem?_append_left (by omega)

theorem take_one_append {α : Type} {l : List α} (h : l ≠ []) (m : List α) : (l ++ m).take 1 = l.take 1 :=
  List.take_append_of_le_length (List.length_pos_iff.2 h)

/-- A code whose string may be the one the decoder lacks: if it is, the string is the one read last and that one's first
symbol, since the string to come is an extension of the one read last. -/
theorem codeString_of_lacking {prev str : List Nat} (hprev : prev ≠ [])
    (h : codeString size (strings ++ [prev ++ str.take 1]) k = some str)
    (hk : k < 2 ^ size + 2 + strings.length + 1) :
    (k < 2 ^ size + 2 + strings.length ∧ codeString size strings k = some str) ∨
      (k = 2 ^ size + 2 + strings.length ∧ str = prev ++ prev.take 1) := by
  obtain hk | rfl := Nat.lt_or_eq_of_le (Nat.le_of_lt_succ hk)
  · exact .inl ⟨hk, codeString_dropLast hk ▸ h⟩
  · have hstr : prev ++ str.take 1 = str := Option.some.inj ((codeString_last _).symm.trans h)
    have htake : str.take 1 = prev.take 1 := by rw [← hstr, take_one_append hprev]
    exact .inr ⟨rfl, by rw [← htake, hstr]⟩

end

/-! The decoder's loop on one code (R115) -/

/-- The decoder with the stream of `codes`, and `pad` bits above it, unread. -/
def DecoderState.feed (d : DecoderState) (codes : List Emitted) (pad : Nat) : DecoderState :=
  { d with bits := streamValue codes, left := streamLength codes + pad }

/-- The decoder after a `CLEAR` (R115). -/
def DecoderState.clear (size : Nat) (d : DecoderState) : DecoderState :=
  { d with width := size + 1, strings := [], prev := none }

section
variable {size n k pad : Nat} {codes : List Emitted} {d : DecoderState}

/-- Reading a code takes it, and no more, off the unread bits. -/
theorem feed_cons_bits (hk : k < 2 ^ d.width) :
    (d.feed ((k, d.width) :: codes) pad).bits % 2 ^ d.width = k ∧
      (d.feed ((k, d.width) :: codes) pad).bits / 2 ^ d.width = streamValue codes := by
  have hpos := Nat.two_pow_pos d.width
  simp only [DecoderState.feed, streamValue]
  exact ⟨by rw [Nat.add_mul_mod_self_left, Nat.mod_eq_of_lt hk],
    by rw [Nat.add_mul_div_left _ _ hpos, Nat.div_eq_of_lt hk, Nat.zero_add]⟩

theorem feed_cons_left :
    (d.feed ((k, d.width) :: codes) pad).left = d.width + (streamLength codes + pad) := Nat.add_assoc ..

/-- One round of the loop on a code written at the width in force. -/
theorem decoderLoop_feed (hk : k < 2 ^ d.width) :
    decoderLoop size (n + 1) (d.feed ((k, d.width) :: codes) pad) =
      if k = 2 ^ size then decoderLoop size n ((d.clear size).feed codes pad)
      else if k = 2 ^ size + 1 then some ([], streamLength codes + pad)
      else
        ((d.feed codes pad).dataCode size k).bind fun found =>
          (decoderLoop size n found.2).map fun r => (found.1 ++ r.1, r.2) := by
  obtain ⟨hmod, hdiv⟩ := feed_cons_bits (codes := codes) (pad := pad) hk
  have hleft := feed_cons_left (k := k) (codes := codes) (pad := pad) (d := d)
  have hwidth : (d.feed ((k, d.width) :: codes) pad).width = d.width := rfl
  rw [decoderLoop, hwidth, hmod, hdiv, hleft, if_neg (by omega), Nat.add_sub_cancel_left]
  refine if_congr Iff.rfl rfl (if_congr Iff.rfl rfl ?_)
  split
  case h_1 hfound =>
    rw [show (d.feed codes pad).dataCode size k = none from hfound]
    rfl
  case h_2 str d' hfound =>
    rw [show (d.feed codes pad).dataCode size k = some (str, d') from hfound]
    rfl

theorem decoderLoop_clear (hk : 2 ^ size < 2 ^ d.width) :
    decoderLoop size (n + 1) (d.feed ((2 ^ size, d.width) :: codes) pad) =
      decoderLoop size n ((d.clear size).feed codes pad) := by
  rw [decoderLoop_feed hk, if_pos rfl]

theorem decoderLoop_eof (hk : 2 ^ size + 1 < 2 ^ d.width) :
    decoderLoop size (n + 1) (d.feed ((2 ^ size + 1, d.width) :: codes) pad) =
      some ([], streamLength codes + pad) := by
  rw [decoderLoop_feed hk, if_neg (by omega), if_pos rfl]

theorem decoderLoop_dataCode {str : List Nat} {d' : DecoderState} (hk : k < 2 ^ d.width) (hclear : k ≠ 2 ^ size)
    (heof : k ≠ 2 ^ size + 1) (hd : (d.feed codes pad).dataCode size k = some (str, d')) :
    decoderLoop size (n + 1) (d.feed ((k, d.width) :: codes) pad) =
      (decoderLoop size n d').map fun r => (str ++ r.1, r.2) := by
  rw [decoderLoop_feed hk, if_neg hclear, if_neg heof, hd]
  rfl

/-- The decoder's width rule is the encoder's, for the entry after the one it makes (R112, R115). -/
theorem decoder_width_eq_widen (avail w : Nat) :
    (if 2 ^ w ≤ avail + 1 ∧ w < Config.maxBits then w + 1 else w) = widen (avail + 1) w := by
  have hpos := Nat.two_pow_pos w
  unfold widen
  congr 2
  exact propext ⟨fun h => by omega, fun h => by omega⟩

/-- The first data code after a `CLEAR` is a symbol, and makes no entry. -/
theorem dataCode_first (hprev : d.prev = none) (hk : k < 2 ^ size) :
    d.dataCode size k = some ([k], { d with prev := some [k] }) := by
  rw [DecoderState.dataCode, hprev]
  exact if_pos hk

/-- A further data code is in the table, or it is the next code, whose string begins and ends with the same symbol. -/
theorem dataCode_next {prev str : List Nat} (hprev : d.prev = some prev) (hroom : d.avail size < Config.maxMaxCode)
    (hstr : (k < d.avail size ∧ codeString size d.strings k = some str) ∨
      (k = d.avail size ∧ str = prev ++ prev.take 1)) :
    d.dataCode size k =
      some (str, { d with
        strings := d.strings ++ [prev ++ str.take 1], width := widen (d.avail size + 1) d.width,
        prev := some str }) := by
  rw [DecoderState.dataCode, hprev, ← decoder_width_eq_widen]
  obtain ⟨hk, hstr⟩ | ⟨rfl, rfl⟩ := hstr
  · simp only [if_pos hk, string_eq_codeString, hstr, Option.map_some, if_pos hroom]
  · simp only [lt_irrefl, if_false, if_true, Option.map_some, if_pos hroom]

end

/-! What the encoder's map and the decoder's table have in common -/

/-- The variables of R84 with the strings of the codes from `FIRST` to `free - 1`, and the string the code so far
stands for. -/
structure FrameStrings (b : BitVec 4) (f : FrameState) (strings : List (List Nat)) (str : List Nat) : Prop where
  free : f.free = firstCode b + strings.length
  code : codeString (ics b) strings f.code = some str
  nonempty : str ≠ []
  map : ∀ p c v, f.map.lookup (p, c) = some v →
    ∃ s, codeString (ics b) strings p = some s ∧ codeString (ics b) strings v = some (s ++ [c])

/-- The decoder before it reads the code so far: it has no string yet, or it lacks the last one, which is that of the
code it has read last and the first symbol of the string to come (R115). -/
structure DecoderLags (f : FrameState) (strings : List (List Nat)) (str : List Nat) (d : DecoderState) : Prop where
  width : d.width = f.width
  last : (d.prev = none ∧ d.strings = [] ∧ strings = []) ∨
    ∃ prev, d.prev = some prev ∧ prev ≠ [] ∧ strings = d.strings ++ [prev ++ str.take 1]

/-- The decoder after it has read the code so far: it has every string, and the width has followed (R112, R115). -/
def DecoderState.catchUp (f : FrameState) (strings : List (List Nat)) (str : List Nat) (d : DecoderState) :
    DecoderState :=
  { d with width := widen f.free f.width, strings := strings, prev := some str }

section
variable {b : BitVec 4} {f : FrameState} {strings : List (List Nat)} {str : List Nat} {d : DecoderState} {c : Nat}

/-- An empty table with a symbol as the code so far. -/
theorem frameStrings_restart (hb : legalBpp b = true) (hc : c < 2 ^ b.toNat) (w : Nat) :
    FrameStrings b { map := [], free := firstCode b, width := w, code := c } [] [c] := by
  obtain ⟨-, -, -, -, hpal, -⟩ := legalBpp_bounds hb
  exact ⟨rfl, codeString_symbol (hc.trans_le hpal), List.cons_ne_nil _ _, fun _ _ _ h => nomatch h⟩

/-- A hit: the code so far is that of the string longer by the symbol. -/
theorem FrameStrings.hit (h : FrameStrings b f strings str) {v : Nat} (hl : f.map.lookup (f.code, c) = some v) :
    FrameStrings b { f with code := v } strings (str ++ [c]) := by
  obtain ⟨s, hs, hv⟩ := h.map _ _ _ hl
  obtain rfl : str = s := Option.some.inj (h.code.symm.trans hs)
  exact ⟨h.free, hv, List.append_ne_nil_of_left_ne_nil h.nonempty _, h.map⟩

/-- A miss with room: the next code stands for the string longer by the symbol. -/
theorem FrameStrings.enter (h : FrameStrings b f strings str) (hb : legalBpp b = true) (hc : c < 2 ^ b.toNat)
    (w : Nat) :
    FrameStrings b { map := ((f.code, c), f.free) :: f.map, free := f.free + 1, width := w, code := c }
      (strings ++ [str ++ [c]]) [c] := by
  obtain ⟨-, -, -, -, hpal, -⟩ := legalBpp_bounds hb
  refine ⟨?_, codeString_symbol (hc.trans_le hpal), List.cons_ne_nil _ _, fun p x v hl => ?_⟩
  · rw [h.free, List.length_append, List.length_singleton, Nat.add_assoc]
  · rw [List.lookup_cons] at hl
    split at hl
    case h_1 heq =>
      obtain ⟨rfl, rfl⟩ := Prod.mk.inj (beq_iff_eq.1 heq)
      cases hl
      refine ⟨str, codeString_append h.code _, ?_⟩
      rw [h.free]
      exact codeString_last _
    case h_2 =>
      obtain ⟨s, hs, hv⟩ := h.map p x v hl
      exact ⟨s, codeString_append hs _, codeString_append hv _⟩

/-- The first width of a frame has room for the first code to be assigned (R112). -/
theorem widen_firstCode (hb : legalBpp b = true) {w : Nat} (hw : ics b + 1 ≤ w) : widen (firstCode b) w = w := by
  have hpow := two_pow_width_ge hb hw
  obtain ⟨-, -, hclear, -⟩ := legalBpp_bounds hb
  rw [widen, if_neg]
  rw [firstCode_eq]
  omega

/-- The decoder reads the code so far as the string it stands for, and then has every string. -/
theorem DecoderLags.dataCode (hd : DecoderLags f strings str d) (h : FrameStrings b f strings str)
    (hb : legalBpp b = true) (hf : FrameInv b f) :
    d.dataCode (ics b) f.code = some (str, d.catchUp f strings str) := by
  have hcode := h.code
  have hfree := h.free
  obtain ⟨hprev, hempty, rfl⟩ | ⟨prev, hprev, hne, rfl⟩ := hd.last
  · have hk := lt_of_codeString_nil hcode
    obtain rfl : [f.code] = str := Option.some.inj ((codeString_symbol hk).symm.trans hcode)
    have hwidth : widen f.free f.width = d.width := by
      rw [hfree, hd.width]; exact widen_firstCode hb hf.width.1
    rw [dataCode_first hprev hk, DecoderState.catchUp, hwidth, ← hempty]
  · have havail : f.free = d.avail (ics b) + 1 := by
      rw [hfree, List.length_append, List.length_singleton]; rfl
    have hroom : d.avail (ics b) < Config.maxMaxCode := Nat.lt_of_succ_le (havail.symm.trans_le hf.free.2)
    have hstr := codeString_of_lacking hne hcode (havail ▸ hf.code.1)
    rw [dataCode_next hprev hroom hstr, DecoderState.catchUp, ← havail, ← hd.width]

/-- A hit leaves the decoder where it is: the string to come still begins with the same symbol. -/
theorem DecoderLags.hit (hd : DecoderLags f strings str d) (hne : str ≠ []) (v : Nat) :
    DecoderLags { f with code := v } strings (str ++ [c]) d :=
  ⟨hd.width, by rw [take_one_append hne]; exact hd.last⟩

theorem decoderLags_catchUp (hne : str ≠ []) (map : List ((Nat × Nat) × Nat)) (free : Nat) :
    DecoderLags { map := map, free := free, width := widen f.free f.width, code := c } (strings ++ [str ++ [c]]) [c]
      (d.catchUp f strings str) :=
  ⟨rfl, .inr ⟨str, rfl, hne, rfl⟩⟩

theorem decoderLags_clear {size : Nat} (map : List ((Nat × Nat) × Nat)) (free : Nat) :
    DecoderLags { map := map, free := free, width := size + 1, code := c } [] [c] (d.clear size) :=
  ⟨rfl, .inl ⟨rfl, rfl, rfl⟩⟩

end

/-! The codes of the rest of a frame -/

/-- The codes the symbols `cs` and END make the frame emit (R84). -/
def frameTail (b : BitVec 4) (f : FrameState) (cs : List (BitVec 8)) : List Emitted :=
  (frameSymbols b f cs).2 ++ frameEnd b (frameSymbols b f cs).1

theorem frameCodes_eq_frameTail (b : BitVec 4) (c : BitVec 8) (cs : List (BitVec 8)) :
    frameCodes b c cs = (clearCode b, ics b + 1) :: frameTail b (frameStart b c) cs := rfl

theorem frameTail_cons (b : BitVec 4) (f : FrameState) (c : BitVec 8) (cs : List (BitVec 8)) :
    frameTail b f (c :: cs) = (frameSymbol b f c.toNat).2 ++ frameTail b (frameSymbol b f c.toNat).1 cs :=
  List.append_assoc ..

section
variable {b : BitVec 4} {f : FrameState} {strings : List (List Nat)} {str : List Nat} {d : DecoderState}

/-- The decoder's round on the code so far. -/
theorem DecoderLags.decoderLoop {n pad : Nat} {codes : List Emitted} (hd : DecoderLags f strings str d)
    (h : FrameStrings b f strings str) (hb : legalBpp b = true) (hf : FrameInv b f) :
    decoderLoop (ics b) (n + 1) (d.feed ((f.code, f.width) :: codes) pad) =
      (decoderLoop (ics b) n ((d.catchUp f strings str).feed codes pad)).map fun r => (str ++ r.1, r.2) := by
  obtain ⟨hlt, hclear, heof, -⟩ := hf.code
  have hfed : DecoderLags f strings str (d.feed codes pad) := ⟨hd.width, hd.last⟩
  rw [← hd.width]
  exact decoderLoop_dataCode (hd.width ▸ hlt.trans_le hf.fits) hclear heof (hfed.dataCode h hb hf)

/-- The decoder reads the rest of a frame as the string of the code so far and the symbols (R115). -/
theorem decoderLoop_frameTail (hb : legalBpp b = true) {cs : List (BitVec 8)} (hcs : ∀ c ∈ cs, c.toNat < 2 ^ b.toNat)
    (hf : FrameInv b f) (h : FrameStrings b f strings str) (hd : DecoderLags f strings str d) {n pad : Nat}
    (hn : (frameTail b f cs).length ≤ n) :
    decoderLoop (ics b) n (d.feed (frameTail b f cs) pad) = some (str ++ cs.map BitVec.toNat, pad) := by
  induction cs generalizing f strings str d n with
  | nil =>
    obtain ⟨-, -, -, hfit⟩ := reservedCodes_fit hb hf.widen.1
    obtain ⟨m, rfl⟩ : ∃ m, n = m + 2 := Nat.exists_eq_add_of_le' hn
    calc decoderLoop (ics b) (m + 2) (d.feed [(f.code, f.width), (eofCode b, widen f.free f.width)] pad)
        = (decoderLoop (ics b) (m + 1) ((d.catchUp f strings str).feed [(eofCode b, widen f.free f.width)] pad)).map
            fun r => (str ++ r.1, r.2) := hd.decoderLoop h hb hf
      _ = (some ([], streamLength [] + pad)).map fun r => (str ++ r.1, r.2) := by
          rw [← decoderLoop_eof (d := d.catchUp f strings str) hfit]; rfl
      _ = some (str ++ [], pad) := by simp [streamLength]
  | cons c cs ih =>
    obtain ⟨hc, hcs⟩ := List.forall_mem_cons.1 hcs
    have hf' := frameInv_frameSymbol hb hf hc
    rw [frameTail_cons] at hn ⊢
    cases hl : f.map.lookup (f.code, c.toNat) with
    | some v =>
      rw [frameSymbol_hit hl] at hf' hn ⊢
      simpa using ih hcs hf' (h.hit hl) (hd.hit h.nonempty v) hn
    | none =>
      by_cases hroom : f.free < Config.maxMaxCode
      · rw [frameSymbol_enter hl hroom] at hf' hn ⊢
        obtain ⟨m, rfl⟩ : ∃ m, n = m + 1 := Nat.exists_eq_add_of_le' (Nat.one_le_of_lt hn)
        have hrest := ih hcs hf' (h.enter hb hc _) (decoderLags_catchUp (d := d) h.nonempty _ _)
          (Nat.le_of_succ_le_succ hn)
        rw [List.singleton_append, hd.decoderLoop h hb hf, hrest]
        simp
      · rw [frameSymbol_restart hl hroom] at hf' hn ⊢
        obtain ⟨-, -, hfit, -⟩ := reservedCodes_fit hb hf.widen.1
        obtain ⟨m, rfl⟩ : ∃ m, n = m + 2 := Nat.exists_eq_add_of_le' ((Nat.le_add_left ..).trans hn)
        have hrest := ih hcs hf' (frameStrings_restart hb hc _) (decoderLags_clear (d := d.catchUp f strings str) _ _)
          (Nat.le_of_succ_le_succ (Nat.le_of_succ_le_succ hn))
        rw [List.cons_append, List.singleton_append, hd.decoderLoop h hb hf]
        refine (congrArg (Option.map _) ((decoderLoop_clear (d := d.catchUp f strings str) hfit).trans hrest)).trans ?_
        simp

end

/-- The decoder before the first bit (R115). -/
def decoderStart (size : Nat) : DecoderState := { bits := 0, left := 0, width := size + 1, strings := [], prev := none }

/-- Decoding a payload is the loop on its codes, with the padding of the last byte unread above them (R43, R115). -/
theorem standardDecode_payloadOf {size : Nat} {codes : List Emitted} (h : ∀ x ∈ codes, x.1 < 2 ^ x.2) :
    ∃ pad, pad < 8 ∧ streamLength codes + pad = 8 * (payloadOf codes).length ∧
      standardDecode size (payloadOf codes) =
        decoderLoop size (8 * (payloadOf codes).length + 1) ((decoderStart size).feed codes pad) := by
  obtain ⟨hlength, -, hvalue⟩ := payloadIsLittleEndianStream codes h
  obtain ⟨pad, hpad⟩ : ∃ pad, 8 * (payloadOf codes).length = streamLength codes + pad :=
    Nat.exists_eq_add_of_le (by omega)
  refine ⟨pad, by omega, hpad.symm, ?_⟩
  rw [standardDecode, hvalue, hpad]
  rfl

/-- Settles O47: the decoder makes the encoder's entries one code later, so each code it reads stands for the string
the encoder had matched. -/
theorem standardDecoderRecoversSymbols : Obligations.StandardDecoderRecoversSymbols := by
  intro b c cs hframe
  obtain ⟨hb, hc, hcs⟩ := hframe.cons
  have hlegal := frameCodesFitTheirWidth b c cs hframe
  obtain ⟨pad, hpad, hbits, hdecode⟩ := standardDecode_payloadOf (size := ics b) fun x hx => (hlegal x hx).1
  have hcount : (frameCodes b c cs).length ≤ streamLength (frameCodes b c cs) := by
    simpa using streamLength_ge (w := 1) fun x hx => (Nat.le_add_left 1 _).trans (hlegal x hx).2.1
  obtain ⟨-, -, hfit, -⟩ := reservedCodes_fit hb le_rfl
  refine ⟨pad, ?_, hpad⟩
  have htail : (frameTail b (frameStart b c) cs).length ≤ 8 * (payloadOf (frameCodes b c cs)).length :=
    calc (frameTail b (frameStart b c) cs).length ≤ (frameCodes b c cs).length := Nat.le_succ _
      _ ≤ streamLength (frameCodes b c cs) := hcount
      _ ≤ _ := hbits ▸ Nat.le_add_right _ _
  calc standardDecode (ics b) (payloadOf (frameCodes b c cs))
      = decoderLoop (ics b) (8 * (payloadOf (frameCodes b c cs)).length + 1)
          ((decoderStart (ics b)).feed (frameCodes b c cs) pad) := hdecode
    _ = decoderLoop (ics b) (8 * (payloadOf (frameCodes b c cs)).length)
          (((decoderStart (ics b)).clear (ics b)).feed (frameTail b (frameStart b c) cs) pad) := by
        rw [frameCodes_eq_frameTail]; exact decoderLoop_clear hfit
    _ = some ([c.toNat] ++ cs.map BitVec.toNat, pad) :=
        decoderLoop_frameTail hb hcs (frameInv_restart hb hc) (frameStrings_restart hb hc _) (decoderLags_clear _ _)
          htail

end Sys2Proof.Machine
